-- ==== Sys2Proof/Word.lean ====
section
/-! DEFINITION. The words of the engine: bytes, 32-bit and 64-bit words, command and response packets.
All of them are unsigned and wrap silently (00_scope.md R7, R11, R14). The word operations of 00_scope.md R12 are those
of `BitVec`: `add_w` is `+`, `mul_w` is `*`, `xor` is `^^^`, `shr_w` is `>>>`, `shl_w` is `<<<`, `zext_N` is
`BitVec.setWidth N`. The rotation `rotl_w` is in Machine/Rotate.lean.
Where a factor or a summand is a constant, the model writes the constant first: `mul_w` and `add_w` commute (00_scope.md R13),
and a proof then never unfolds a product by a large literal into that many sums. -/
namespace Sys2Proof

/-- A byte of memory (10_state.md R25: a byte is 8 bits). -/
abbrev Byte := BitVec 8

/-- A word of the x86_32 and x86_128 units. -/
abbrev Word32 := BitVec 32

/-- A word of the x64_128 and 16-way units. -/
abbrev Word64 := BitVec 64

/-- A command packet `P[319:0]` (30_encoding.md R60). -/
abbrev Packet := BitVec 320

/-- A response packet `Q[127:0]` (30_encoding.md R63). -/
abbrev ResponsePacket := BitVec 128

end Sys2Proof
end

