-- ==== Sys2Proof/Syntax.lean ====
section
/-! DEFINITION. The eight commands of 30_encoding.md R64, one constructor per row of spec/opcode_table.json. -/
namespace Sys2Proof

/-- The operand fields of a command packet, all of them (30_encoding.md R60). Every command carries all the fields: the
engine latches them all (10_state.md R21), and ignores the ones the command does not use (30_encoding.md R62).
A field not written is 0, as in the spec's own command syntax (30_encoding.md R69). -/
structure Fields where
  /-- `R`, the rotation amount, `P[9:4]`. -/
  r       : BitVec 6 := 0
  /-- `SEED`, `P[63:32]`. -/
  seed    : Word32 := 0
  /-- `LEN`, `P[95:64]`. -/
  len     : Word32 := 0
  /-- `PEND_LEN`, `P[127:96]`. -/
  pendLen : Word32 := 0
  /-- `A`, `P[191:128]`: key address, `vkey1` address, or the operand of a leaf command. -/
  a       : Word64 := 0
  /-- `B`, `P[255:192]`: `vkey2` address. -/
  b       : Word64 := 0
  /-- `OUT`, `P[319:256]`: digest address. -/
  out     : Word64 := 0
  deriving DecidableEq, Repr

/-- The commands (30_encoding.md R64). -/
inductive Instr where
  /-- `OP = 0x1`, 40_rotate.md R81. -/
  | rotl32 (f : Fields)
  /-- `OP = 0x2`, 40_rotate.md R82. -/
  | rotl64 (f : Fields)
  /-- `OP = 0x3`, 41_fmix.md R92. -/
  | fmix32 (f : Fields)
  /-- `OP = 0x4`, 41_fmix.md R93. -/
  | fmix64 (f : Fields)
  /-- `OP = 0x5`, 42_hash_x86_32.md R107. -/
  | hashX86_32 (f : Fields)
  /-- `OP = 0x6`, 43_hash_x86_128.md R128. -/
  | hashX86_128 (f : Fields)
  /-- `OP = 0x7`, 44_hash_x64_128.md R148. -/
  | hashX64_128 (f : Fields)
  /-- `OP = 0x8`, 45_hash_x64_128_x16.md R171. -/
  | hashX64_128_x16 (f : Fields)
  deriving DecidableEq, Repr

/-- The operand fields a command carries. -/
def Instr.fields : Instr → Fields
  | .rotl32 f | .rotl64 f | .fmix32 f | .fmix64 f
  | .hashX86_32 f | .hashX86_128 f | .hashX64_128 f | .hashX64_128_x16 f => f

end Sys2Proof
end

