-- ==== Sys2Proof/WellFormed.lean ====
section
/-! DEFINITION. Which commands have an encoding: the checks of 30_encoding.md R65 that are about operand fields. -/
namespace Sys2Proof

/-- ROTL32 rotates by 0 to 31 (30_encoding.md R62, R65: "`R >= 32` ... with `OP = 0x1`" is illegal). -/
def rotationFits32 (f : Fields) : Bool := f.r.toNat < 32

/-- Every command but ROTL32 and ROTL64 has `R = 0` (30_encoding.md R65: "`R != 0` with `OP` 0x3 to 0x8"). -/
def rotationUnused (f : Fields) : Bool := f.r = 0

/-- A legal command. ROTL64 takes every `R`; no other field is checked (30_encoding.md R62). -/
def Instr.wellFormed : Instr → Bool
  | .rotl32 f => rotationFits32 f
  | .rotl64 _ => true
  | .fmix32 f | .fmix64 f
  | .hashX86_32 f | .hashX86_128 f | .hashX64_128 f | .hashX64_128_x16 f => rotationUnused f

end Sys2Proof
end

