-- ==== Sys2Proof/Decode.lean ====
section
/-! DEFINITION. From command packets to commands and back (30_encoding.md R60 to R66). The decoder is total: every 320-bit
packet is one of the eight commands or is refused by name. -/
namespace Sys2Proof

/-! ### The fields of a packet (30_encoding.md R60) -/

/-- `CMD = P[31:0]`, the command word (30_encoding.md R61). -/
def Packet.cmd (p : Packet) : BitVec 32 := p.extractLsb' 0 32

/-- `OP = P[3:0]`. -/
def Packet.op (p : Packet) : BitVec 4 := p.extractLsb' 0 4

/-- `P[31:10]`, which must be zero. -/
def Packet.reserved (p : Packet) : BitVec 22 := p.extractLsb' 10 22

/-- All operand fields. -/
def Packet.fields (p : Packet) : Fields where
  r       := p.extractLsb' 4 6
  seed    := p.extractLsb' 32 32
  len     := p.extractLsb' 64 32
  pendLen := p.extractLsb' 96 32
  a       := p.extractLsb' 128 64
  b       := p.extractLsb' 192 64
  out     := p.extractLsb' 256 64

/-! ### The opcode map (30_encoding.md R64) -/

/-- One row of the opcode map: the row is the command's when `(CMD & mask) == pattern` (30_encoding.md R61). -/
structure OpcodeRow where
  pattern : BitVec 32
  mask    : BitVec 32
  build   : Fields → Instr

/-- The table of 30_encoding.md R64, row by row. -/
def opcodeTable : List OpcodeRow :=
  [ ⟨0x00000001, 0xFFFFFE0F, .rotl32⟩,
    ⟨0x00000002, 0xFFFFFC0F, .rotl64⟩,
    ⟨0x00000003, 0xFFFFFFFF, .fmix32⟩,
    ⟨0x00000004, 0xFFFFFFFF, .fmix64⟩,
    ⟨0x00000005, 0xFFFFFFFF, .hashX86_32⟩,
    ⟨0x00000006, 0xFFFFFFFF, .hashX86_128⟩,
    ⟨0x00000007, 0xFFFFFFFF, .hashX64_128⟩,
    ⟨0x00000008, 0xFFFFFFFF, .hashX64_128_x16⟩ ]

/-- The row selects this command word. -/
def OpcodeRow.selects (w : OpcodeRow) (cmd : BitVec 32) : Bool := cmd &&& w.mask == w.pattern

/-! ### Decoding -/

/-- Why a packet is no command (30_encoding.md R65). All four give the same status, `ERR_ILLEGAL`. -/
inductive Illegal where
  /-- `OP = 0x0` or `OP = 0x9` to `0xF`. -/
  | reservedOpcode
  /-- A nonzero bit in `CMD[31:10]`. -/
  | reservedBits
  /-- `R >= 32` with `OP = 0x1`. -/
  | rotationTooLarge
  /-- `R != 0` with `OP` 0x3 to 0x8. -/
  | rotationNotZero
  deriving DecidableEq, Repr

/-- The name of what is wrong with a packet that no row selects. -/
def Packet.illegal (p : Packet) : Illegal :=
  if p.op = 0x0 ∨ 0x9 ≤ p.op then .reservedOpcode
  else if p.reserved ≠ 0 then .reservedBits
  else if p.op = 0x1 then .rotationTooLarge
  else .rotationNotZero

/-- The decoder (30_encoding.md R61, R64, R66). -/
def decode (p : Packet) : Except Illegal Instr :=
  match opcodeTable.find? (·.selects p.cmd) with
  | some w => .ok (w.build p.fields)
  | none => .error p.illegal

/-! ### Encoding -/

/-- The opcode `OP` of a command (30_encoding.md R64). -/
def Instr.op : Instr → BitVec 4
  | .rotl32 _ => 0x1
  | .rotl64 _ => 0x2
  | .fmix32 _ => 0x3
  | .fmix64 _ => 0x4
  | .hashX86_32 _ => 0x5
  | .hashX86_128 _ => 0x6
  | .hashX64_128 _ => 0x7
  | .hashX64_128_x16 _ => 0x8

/-- The packet of a command, its fields laid out by 30_encoding.md R60, `OUT` in the highest bits. -/
def encode (i : Instr) : Packet :=
  i.fields.out ++ i.fields.b ++ i.fields.a ++ i.fields.pendLen ++ i.fields.len ++ i.fields.seed
    ++ (0 : BitVec 22) ++ i.fields.r ++ i.op

/-! ### The opcode table's words -/

/-- The packet whose low `nbits` bits are `w` and whose other bits are 0. -/
def packetOfTableWord (nbits w : Nat) : Packet := BitVec.ofNat 320 (w % 2 ^ nbits)

/-- The instruction the decoder reads from a word of spec/opcode_table.json. A packet reaches the engine as one 320-bit value
(30_encoding.md R60), so the table's bit numbers are the packet's. -/
def decodeTableWord (nbits w : Nat) : Option Instr := (decode (packetOfTableWord nbits w)).toOption

end Sys2Proof
end

