-- ==== Sys2Proof/Machine/Constants.lean ====
section
/-! DEFINITION. The hardwired algorithm constants (10_state.md R29) and rotation amounts (40_rotate.md R83): no command and
no reset changes them. The values the spec itself marks as general knowledge are named in log 18. -/
namespace Sys2Proof.Machine

def C1_32 : Word32 := 0xcc9e2d51
def C2_32 : Word32 := 0x1b873593
def N_32  : Word32 := 0xe6546b64

def F1_32 : Word32 := 0x85ebca6b
def F2_32 : Word32 := 0xc2b2ae35
def F1_64 : Word64 := 0xff51afd7ed558ccd
def F2_64 : Word64 := 0xc4ceb9fe1a85ec53

def C1_128 : Word32 := 0x239b961b
def C2_128 : Word32 := 0xab0e9789
def C3_128 : Word32 := 0x38b34ae5
def C4_128 : Word32 := 0xa1e38b93
def N1_128 : Word32 := 0x561ccd1b
def N2_128 : Word32 := 0x0bcaa747
def N3_128 : Word32 := 0x96cd1c35
def N4_128 : Word32 := 0x32ac3b17

def C1_64 : Word64 := 0x87c37b91114253d5
def C2_64 : Word64 := 0x4cf5ad432745937f
def N1_64 : Word64 := 0x0000000052dce729
def N2_64 : Word64 := 0x0000000038495ab5

end Sys2Proof.Machine
end

