-- ==== Sys2Proof/Machine/Flags.lean ====
section
/-! DEFINITION. The engine has no status flags, condition codes or predicates (10_state.md R26), so there is no flag
computation. This file holds the only conditions it evaluates, each computed from the latches where it is used and stored
nowhere: the loop bound `I < nblocks`, the tail length `LEN mod blockSize`, and `PEND_LEN > LEN`. -/
namespace Sys2Proof.Machine

/-- The number of blocks of `blockSize` bytes, `floor(LEN / blockSize)` (42_hash_x86_32.md R100, 43_hash_x86_128.md R120,
44_hash_x64_128.md R140, 45_hash_x64_128_x16.md R161). -/
def nblocks (f : Fields) (blockSize : Nat) : Nat := f.len.toNat / blockSize

/-- The number of tail bytes, `LEN mod blockSize`. -/
def tailLen (f : Fields) (blockSize : Nat) : Nat := f.len.toNat % blockSize

/-- `extra = (PEND_LEN > LEN)` (45_hash_x64_128_x16.md R161). -/
def extraBlock (f : Fields) : Bool := f.len < f.pendLen

end Sys2Proof.Machine
end

