-- ==== Sys2Proof/Config.lean ====
section
/-! DEFINITION. What is fixed for one machine, and the values the spec leaves free.
`Config` is plain data, so that every claim is about every value of the parameters of 00_scope.md R6 and 20_memory.md R52
(logs 4 and 5). The `opaque` constants have no body: nothing can be proved about the values they give. -/
namespace Sys2Proof

/-- The bytes `base, .., base + size - 1` (20_memory.md R44 writes it `[base, base + size)`). -/
structure Region where
  base : Nat
  size : Nat
  deriving DecidableEq, Repr

/-- The parameters a model takes: the address width `AW` (00_scope.md R6, default 64), the number `NENG` of engine instances
behind the one command port (R6, default 1) and the platform's predicates `Readable` and `Writable` (20_memory.md R52), held as
the bytes that are NOT readable and NOT writable. No rule's effect depends on `NENG`: every instance has the same rules and
commands on different instances are atomic with respect to each other (60_exceptions.md R202; DEDUCED, log 7).
DESIGN CHOICE (log 5), unsafe for the default: the spec does not say which bytes are accessible; the default closes none. -/
structure Config where
  aw      : Nat := 64
  neng    : Nat := 1
  noRead  : List Region := []
  noWrite : List Region := []
  deriving DecidableEq, Repr

/-- FREE VALUE (log 6): what register number `k` holds when the spec says its value is unspecified (10_state.md R30), at the
draw numbered `n`. -/
opaque Config.freeWord : Nat → Nat → BitVec 64

/-- FREE VALUE (log 10): whether byte `k` of the write region of a command that reset has cut short (70_reset_and_hazards.md
R222), at the draw numbered `n`, already holds the byte the command would have written. -/
opaque Config.freePick : Nat → Nat → Bool

/-- FREE VALUE (log 11): byte `k` of the write region of a command whose regions another agent wrote meanwhile
(70_reset_and_hazards.md R224), at the draw numbered `n`. -/
opaque Config.freeByte : Nat → Nat → Byte

end Sys2Proof
end

