-- ==== Sys2Proof/Machine/State.lean ====
section
/-! DEFINITION. The state of the machine, all of it plain data (10_state.md R20 to R30; INVENTORY.md lists every field), the
reasons for which a step can stop, and the state right after reset. -/
namespace Sys2Proof.Machine

/-- The host's memory (10_state.md R25): address and byte, addresses strictly rising, no entry that holds what an unlisted
address reads as (`Memory.wf`, Machine/Ops.lean). -/
abbrev Memory := List Host.Cell

/-- What reaches the engine from outside, one at a time, in the order of the list `State.inputs` (00_scope.md R5,
60_exceptions.md R202; log 1). A host has a number, so that its responses can be told from other hosts'. -/
inductive Input where
  /-- Host `host` sends a command packet, and nothing interferes with the command (20_memory.md R47). -/
  | command (host : Nat) (packet : Packet)
  /-- Host `host` sends a command packet, and before its response some agent other than the engine stores these bytes
  (70_reset_and_hazards.md R224; log 11). -/
  | commandRaced (host : Nat) (packet : Packet) (stores : List Host.Cell)
  /-- Host `host` sends a command packet, and reset is applied after the engine accepted it and before its response
  (70_reset_and_hazards.md R222; log 10). -/
  | commandCut (host : Nat) (packet : Packet)
  /-- Both: some other agent stores these bytes, and reset is applied before the response (70_reset_and_hazards.md R222, R224).
  How the two combine is the model's choice: the spec does not say (log 25). -/
  | commandRacedCut (host : Nat) (packet : Packet) (stores : List Host.Cell)
  /-- A host stores one byte between commands (20_memory.md R49 (1); log 9). -/
  | store (addr : Nat) (byte : Byte)
  /-- The platform changes which bytes are not `Readable` and not `Writable` (20_memory.md R52; log 9). -/
  | setAccess (noRead noWrite : List Region)
  /-- Reset between commands (70_reset_and_hazards.md R220). -/
  | reset
  deriving DecidableEq, Repr

/-- A response packet sent, and the host it was sent to (30_encoding.md R63, 60_exceptions.md R202). -/
structure Response where
  host   : Nat
  packet : ResponsePacket
  deriving DecidableEq, Repr

/-- The command latches (10_state.md R21). -/
structure Latches where
  op : BitVec 4
  f  : Fields
  deriving DecidableEq, Repr

/-- The working registers of the x86_32 unit (10_state.md R22). -/
structure X86_32Regs where
  h : Word32
  k : Word32
  deriving DecidableEq, Repr

/-- The working registers of the x86_128 unit (10_state.md R22). -/
structure X86_128Regs where
  h1 : Word32
  h2 : Word32
  h3 : Word32
  h4 : Word32
  k1 : Word32
  k2 : Word32
  k3 : Word32
  k4 : Word32
  deriving DecidableEq, Repr

/-- The working registers of the x64_128 unit (10_state.md R22). -/
structure X64_128Regs where
  h1 : Word64
  h2 : Word64
  k1 : Word64
  k2 : Word64
  deriving DecidableEq, Repr

/-- A vector register of `VLEN = 512` bits: 8 lanes of 64 bits, lane `l` being bits `64*l+63 : 64*l` (10_state.md R23).
No rule reads or writes a vector register other than lane by lane, so it is its eight lanes. -/
structure VReg where
  l0 : Word64
  l1 : Word64
  l2 : Word64
  l3 : Word64
  l4 : Word64
  l5 : Word64
  l6 : Word64
  l7 : Word64
  deriving DecidableEq, Repr

/-- The vector registers of one key group `g` (10_state.md R23): `VH[g][1]`, `VH[g][2]`, `VK[g][1]`, `VK[g][2]`. -/
structure VGroup where
  vh1 : VReg
  vh2 : VReg
  vk1 : VReg
  vk2 : VReg
  deriving DecidableEq, Repr

/-- The whole machine. -/
structure State where
  /-- The parameters `AW`, `NENG`, `Readable`, `Writable` (00_scope.md R6, 20_memory.md R52; logs 4, 5 and 7). -/
  cfg       : Config
  /-- The host's memory (10_state.md R25). -/
  mem       : Memory
  /-- The inputs the engine has not taken yet, the next one first (log 1). -/
  inputs    : List Input
  /-- The responses sent, oldest first (30_encoding.md R63; log 13). -/
  responses : List Response
  /-- The command latches (10_state.md R21). -/
  latch     : Latches
  /-- `H`, `K` of x86_32 (10_state.md R22). -/
  x86_32    : X86_32Regs
  /-- `H1..H4`, `K1..K4` of x86_128 (10_state.md R22). -/
  x86_128   : X86_128Regs
  /-- `H1, H2`, `K1, K2` of x64_128 (10_state.md R22). -/
  x64_128   : X64_128Regs
  /-- `I`, the block index of the main loop (10_state.md R22). -/
  blockIx   : Word32
  /-- The vector registers of group 0, keys 0 to 7 (10_state.md R23). -/
  group0    : VGroup
  /-- The vector registers of group 1, keys 8 to 15 (10_state.md R23). -/
  group1    : VGroup
  /-- `STATUS` (10_state.md R24). -/
  status    : BitVec 8
  /-- `RES` (10_state.md R24). -/
  res       : Word64
  /-- The model's own field: how many times free values have been drawn (log 24). -/
  draws     : Nat
  deriving DecidableEq, Repr

/-- The reasons for which the machine stops with a fault. No command faults: the engine has no trap (60_exceptions.md R190). -/
inductive Fault where
  /-- Raised by the inputs `store`, `commandRaced` and `commandRacedCut`: a HOST stores to an address that does not exist, at or above `2^AW`
  (10_state.md R25). Safe: the spec gives such a store no effect (log 9). -/
  | hostStoreOutsideMemory (addr : Nat)
  deriving DecidableEq, Repr

/-- The reasons for which an instruction is refused. -/
inductive Refusal where
  /-- Raised by `exec` for an instruction with no meaning in this model. Safe. No instruction is left so. -/
  | notModelled (mnemonic : String)
  deriving DecidableEq, Repr

/-- A vector register with all lanes 0. -/
def VReg.zero : VReg := ⟨0, 0, 0, 0, 0, 0, 0, 0⟩

/-- A group with all lanes 0. -/
def VGroup.zero : VGroup := ⟨.zero, .zero, .zero, .zero⟩

/-- The machine right after reset: idle, no command in progress, no response pending, memory untouched (10_state.md R30,
70_reset_and_hazards.md R220). DESIGN CHOICE (log 2), unsafe: the spec calls every register unspecified; this state holds 0
in each of them. `AW` and `NENG` are the spec's defaults
(00_scope.md R6; log 4), every byte is accessible (log 5). -/
def State.reset : State where
  cfg       := { aw := 64, neng := 1, noRead := [], noWrite := [] }
  mem       := []
  inputs    := []
  responses := []
  latch     := ⟨0, {}⟩
  x86_32    := ⟨0, 0⟩
  x86_128   := ⟨0, 0, 0, 0, 0, 0, 0, 0⟩
  x64_128   := ⟨0, 0, 0, 0⟩
  blockIx   := 0
  group0    := .zero
  group1    := .zero
  status    := 0
  res       := 0
  draws     := 0

end Sys2Proof.Machine
end

