-- ==== Sys2Proof/Machine/Ops.lean ====
section
/-! DEFINITION. The named operations over memory, regions and registers that the commands share: memory primitives
(00_scope.md R9), the checks of a command (60_exceptions.md R193), accepting a command (10_state.md R21), failing
(00_scope.md R10, 60_exceptions.md R195: what takes the place of an exception here) and succeeding, sending the response
(30_encoding.md R63), and the registers' values when the spec gives none (10_state.md R30). -/
namespace Sys2Proof

/-! ### Regions and the platform's predicates -/

/-- The address lies in the region. -/
def Region.contains (g : Region) (a : Nat) : Bool := g.base ≤ a && a < g.base + g.size

/-- The two regions have no byte in common. -/
def Region.disjoint (g k : Region) : Bool :=
  g.size == 0 || k.size == 0 || g.base + g.size ≤ k.base || k.base + k.size ≤ g.base

/-- 00_scope.md R6: `AW` is "any value from 8 to 64", and `NENG` counts the engine instances, of which there is at least one. -/
def Config.wf (c : Config) : Bool := 8 ≤ c.aw && c.aw ≤ 64 && 1 ≤ c.neng

/-- The number of bytes that exist, `2^AW` (10_state.md R25). -/
def Config.memSize (c : Config) : Nat := 2 ^ c.aw

/-- `Readable(a)` of 20_memory.md R52. -/
def Config.readable (c : Config) (a : Nat) : Bool := c.noRead.all fun g => !g.contains a

/-- `Writable(a)` of 20_memory.md R52. -/
def Config.writable (c : Config) (a : Nat) : Bool := c.noWrite.all fun g => !g.contains a

/-- `Fits(base, n)` of 60_exceptions.md R193: "`base < 2^AW and base + n <= 2^AW`, with `base` the full 64-bit latch value
and the sum taken in unbounded integers (no wrap)". -/
def Config.fits (c : Config) (g : Region) : Bool := g.base < c.memSize && g.base + g.size ≤ c.memSize

/-- No byte of the region is not `Readable`; an empty region contains no byte (20_memory.md R44, R52). It compares intervals,
so that it can be evaluated on large regions; `Laws/Access.lean` proves it the same as asking for each byte (log 20). -/
def Config.allReadable (c : Config) (g : Region) : Bool := c.noRead.all fun k => g.disjoint k

/-- No byte of the region is not `Writable` (20_memory.md R44, R52; log 20). -/
def Config.allWritable (c : Config) (g : Region) : Bool := c.noWrite.all fun k => g.disjoint k

end Sys2Proof

namespace Sys2Proof.Machine

/-! ### Memory, byte by byte -/

/-- What a byte that nothing has written reads as. DESIGN CHOICE (log 3), unsafe: memory is the host's (10_state.md R25) and
reset does not touch it (R30), so the spec gives it no contents. -/
def Memory.blank : Byte := 0

/-- The byte at an address. -/
def Memory.read : Memory → Nat → Byte
  | [], _ => Memory.blank
  | (k, v) :: m, a => if a = k then v else Memory.read m a

/-- The memory with one byte changed, still in canonical form. -/
def Memory.write : Memory → Nat → Byte → Memory
  | [], a, b => if b = Memory.blank then [] else [(a, b)]
  | (k, v) :: m, a, b =>
    if a < k then (if b = Memory.blank then (k, v) :: m else (a, b) :: (k, v) :: m)
    else if a = k then (if b = Memory.blank then m else (a, b) :: m)
    else (k, v) :: Memory.write m a b

/-- The canonical form: addresses strictly rising, and no entry that holds `Memory.blank`. -/
def Memory.wf : Memory → Bool
  | [] => true
  | (k, v) :: m => v != Memory.blank && m.all (fun c => k < c.1) && Memory.wf m

/-- Every listed address is below `n`. -/
def Memory.within (m : Memory) (n : Nat) : Bool := m.all fun c => c.1 < n

/-- Stores of single bytes, one after another. -/
def Memory.store (m : Memory) (cells : List Host.Cell) : Memory :=
  cells.foldl (fun m c => m.write c.1 c.2) m

/-! ### Memory, in little-endian words (00_scope.md R9; 20_memory.md R40, R41, R42) -/

/-- `MemRead(addr, n)`: the unsigned integer whose byte `i` is the byte at `addr + i`. -/
def Memory.memRead (m : Memory) (addr : Nat) : Nat → Nat
  | 0 => 0
  | n + 1 => (m.read addr).toNat + 256 * m.memRead (addr + 1) n

/-- `MemWrite(addr, n, v)`: byte `i` of `v` goes to `addr + i` for `i = 0 .. n-1`. -/
def Memory.memWrite (m : Memory) (addr : Nat) : Nat → Nat → Memory
  | 0, _ => m
  | n + 1, v => (m.write addr (BitVec.ofNat 8 v)).memWrite (addr + 1) n (v / 256)

/-- `MemRead(addr, 4)` as a word. -/
def Memory.read32 (m : Memory) (addr : Nat) : Word32 := BitVec.ofNat 32 (m.memRead addr 4)

/-- `MemRead(addr, 8)` as a word. -/
def Memory.read64 (m : Memory) (addr : Nat) : Word64 := BitVec.ofNat 64 (m.memRead addr 8)

/-- `MemWrite(addr, 4, v)` of a word. -/
def Memory.write32 (m : Memory) (addr : Nat) (v : Word32) : Memory := m.memWrite addr 4 v.toNat

/-- `MemWrite(addr, 8, v)` of a word. -/
def Memory.write64 (m : Memory) (addr : Nat) (v : Word64) : Memory := m.memWrite addr 8 v.toNat

/-- `MemWrite(addr + 8*i, 8, w_i)` for each word `w_i` of a list, in order. -/
def Memory.writeWords64 : Memory → Nat → List Word64 → Memory
  | m, _, [] => m
  | m, addr, w :: ws => (m.write64 addr w).writeWords64 (addr + 8) ws

/-! ### Status codes (60_exceptions.md R191) -/

/-- The six status codes; 6 to 255 are never returned (93_implementation_defined.md U15). -/
inductive Status where
  | ok
  | errIllegal
  | errLen
  | errAddr
  | errRead
  | errWrite
  deriving DecidableEq, Repr

/-- The code of a status, as the register `STATUS` and the response hold it. -/
def Status.code : Status → BitVec 8
  | .ok => 0
  | .errIllegal => 1
  | .errLen => 2
  | .errAddr => 3
  | .errRead => 4
  | .errWrite => 5

/-! ### Accepting, failing, succeeding -/

/-- Command acceptance: all the latches are written at once from the packet (10_state.md R21). -/
def State.accept (op : BitVec 4) (f : Fields) (s : State) : State := { s with latch := ⟨op, f⟩ }

/-- The response registers are formed at the end of the command (10_state.md R24). -/
def State.respond (st : Status) (res : Word64) (s : State) : State := { s with status := st.code, res := res }

/-- `fail <STATUS>` (00_scope.md R10, 60_exceptions.md R195): "`STATUS <- the code; RES <- 0`; no `MemWrite` is performed".
The working registers stay as they are until the response is sent, when they become unspecified (log 16). -/
def State.fail (st : Status) (s : State) : State := s.respond st 0

/-- The checks of 60_exceptions.md R193 in their order: decode, lengths, regions, reads, writes; the first that fails decides
the status. `illegal` is what decoding leaves to check of a decoded command (the field `R`; log 14), `lenTooLong` is step 2's
condition. A read region of length 0 is not checked (20_memory.md R44). `none` means that the command executes (step 6). -/
def checkCommand (c : Config) (illegal lenTooLong : Bool) (reads : List Region) (write : Region) : Option Status :=
  if illegal then some .errIllegal
  else if lenTooLong then some .errLen
  else if !(reads.all fun g => g.size == 0 || c.fits g) || !c.fits write then some .errAddr
  else if !(reads.all c.allReadable) then some .errRead
  else if !c.allWritable write then some .errWrite
  else none

/-- The shape that the four HASH commands share (60_exceptions.md R193): the checks come before all effects (R194), then
the operation runs, then `RES <- 0 ; STATUS <- OK`. -/
def State.runChecked (verdict : Option Status) (operation : State → State) (s : State) : State :=
  match verdict with
  | some st => s.fail st
  | none => (operation s).respond .ok 0

/-- The block loop of every unit, "for `I = 0, 1, .., n - 1` in ascending order": the block step, which advances `I`, `n`
times (42_hash_x86_32.md R103, 43_hash_x86_128.md R124, 44_hash_x64_128.md R144, 45_hash_x64_128_x16.md R165). -/
def blockLoop (step : State → State) : Nat → State → State
  | 0, s => s
  | n + 1, s => blockLoop step n (step s)

/-! ### Vector registers (10_state.md R23) -/

/-- Lane `l` of a vector register. -/
def VReg.lane (v : VReg) : Fin 8 → Word64
  | 0 => v.l0
  | 1 => v.l1
  | 2 => v.l2
  | 3 => v.l3
  | 4 => v.l4
  | 5 => v.l5
  | 6 => v.l6
  | 7 => v.l7

/-- The vector register whose lane `l` is `g l`. -/
def VReg.ofLanes (g : Fin 8 → Word64) : VReg := ⟨g 0, g 1, g 2, g 3, g 4, g 5, g 6, g 7⟩

/-- `VReg <- Slot(g, j)` (45_hash_x64_128_x16.md R163): lane `l` of slot `j` of a buffer is the little-endian word at
`base + 64*j + 8*l`. -/
def Memory.slot (m : Memory) (base j : Nat) : VReg := VReg.ofLanes fun l => m.read64 (base + 64 * j + 8 * l)

/-! ### The response packet, and what the registers hold afterwards -/

/-- `Q[7:0] = STATUS`, `Q[63:8] = 0`, `Q[127:64] = RES` (30_encoding.md R63). -/
def responsePacket (status : BitVec 8) (res : Word64) : ResponsePacket := res ++ (0 : BitVec 56) ++ status

/-- A vector register of free values, numbers `k` to `k + 7` of draw `n`. -/
def VReg.free (n k : Nat) : VReg := VReg.ofLanes fun l => Config.freeWord n (k + l)

/-- Every latch, working register, vector register and response register becomes unspecified (10_state.md R30): each takes
a free value of its own (log 6). Memory, parameters, inputs and responses are not touched. -/
def State.forget (s : State) : State :=
  let w (k : Nat) : BitVec 64 := Config.freeWord s.draws k
  { s with
    latch := ⟨(w 0).setWidth 4, ⟨(w 1).setWidth 6, (w 2).setWidth 32, (w 3).setWidth 32, (w 4).setWidth 32, w 5, w 6, w 7⟩⟩
    x86_32 := ⟨(w 8).setWidth 32, (w 9).setWidth 32⟩
    x86_128 := ⟨(w 10).setWidth 32, (w 11).setWidth 32, (w 12).setWidth 32, (w 13).setWidth 32, (w 14).setWidth 32,
      (w 15).setWidth 32, (w 16).setWidth 32, (w 17).setWidth 32⟩
    x64_128 := ⟨w 18, w 19, w 20, w 21⟩
    blockIx := (w 22).setWidth 32
    group0 := ⟨.free s.draws 32, .free s.draws 40, .free s.draws 48, .free s.draws 56⟩
    group1 := ⟨.free s.draws 64, .free s.draws 72, .free s.draws 80, .free s.draws 88⟩
    status := (w 23).setWidth 8
    res := w 24
    draws := s.draws + 1 }

/-- The response goes to the host (30_encoding.md R63: "exactly one response packet"), and the registers, dead from then on
(10_state.md R20), become unspecified. -/
def State.deliver (host : Nat) (s : State) : State :=
  { s.forget with responses := s.responses ++ [⟨host, responsePacket s.status s.res⟩] }

end Sys2Proof.Machine
end

