-- ==== Sys2Proof/Machine/Operands.lean ====
section
/-! DEFINITION. The operands of the commands, read from the latches (30_encoding.md R62, R67), and the regions of memory they
name (20_memory.md R44). -/
namespace Sys2Proof.Machine

/-- `A[31:0]`, the operand of ROTL32 and FMIX32; `A[63:32]` is ignored (30_encoding.md R62). -/
abbrev State.operand32 (s : State) : Word32 := s.latch.f.a.setWidth 32

/-- `A[63:0]`, the operand of ROTL64 and FMIX64. -/
abbrev State.operand64 (s : State) : Word64 := s.latch.f.a

/-- `SEED` as a word of the 32-bit units. -/
abbrev State.seed32 (s : State) : Word32 := s.latch.f.seed

/-- `zext_64(SEED)` (44_hash_x64_128.md R141). -/
abbrev State.seed64 (s : State) : Word64 := s.latch.f.seed.setWidth 64

/-- `LEN` as a word of the 32-bit units (42_hash_x86_32.md R105). -/
abbrev State.len32 (s : State) : Word32 := s.latch.f.len

/-- `zext_64(LEN)` (44_hash_x64_128.md R146). -/
abbrev State.len64 (s : State) : Word64 := s.latch.f.len.setWidth 64

/-- `LEN` as a number of bytes. -/
abbrev State.len (s : State) : Nat := s.latch.f.len.toNat

/-- The key address, or the address of `vkey1` (`base_0`). -/
abbrev State.keyAddr (s : State) : Nat := s.latch.f.a.toNat

/-- The address of `vkey2` (`base_1`). -/
abbrev State.keyAddr2 (s : State) : Nat := s.latch.f.b.toNat

/-- The digest address. -/
abbrev State.outAddr (s : State) : Nat := s.latch.f.out.toNat

/-- `I` as a number. -/
abbrev State.index (s : State) : Nat := s.blockIx.toNat

/-- The tail address, `T = A + blockSize * nblocks`. -/
def tailAddr (f : Fields) (blockSize : Nat) : Nat := f.a.toNat + blockSize * nblocks f blockSize

/-- `nslots = 2 * nblocks + (2 if extra else 0)` (45_hash_x64_128_x16.md R161). -/
def nslots (f : Fields) : Nat := 2 * nblocks f 16 + (if extraBlock f then 2 else 0)

/-- `R != 0`, illegal for every command but ROTL32 and ROTL64 (30_encoding.md R65). -/
def rotationGiven (f : Fields) : Bool := f.r != 0

/-- `LEN >= 2^31` (60_exceptions.md R193, step 2). -/
def lenTooLong (f : Fields) : Bool := 2 ^ 31 ≤ f.len.toNat

/-- `PEND_LEN >= 2^31` (60_exceptions.md R193, step 2, for HASH_X64_128_X16 only). -/
def pendLenTooLong (f : Fields) : Bool := 2 ^ 31 ≤ f.pendLen.toNat

/-- `[A, A + LEN)` (20_memory.md R44). -/
def keyRegion (f : Fields) : Region := ⟨f.a.toNat, f.len.toNat⟩

/-- `[A, A + 64*nslots)` and `[B, B + 64*nslots)` (20_memory.md R44). -/
def slotRegions (f : Fields) : List Region := [⟨f.a.toNat, 64 * nslots f⟩, ⟨f.b.toNat, 64 * nslots f⟩]

/-- `[OUT, OUT + n)` (20_memory.md R44). -/
def outRegion (f : Fields) (n : Nat) : Region := ⟨f.out.toNat, n⟩

/-- The read regions of each command (20_memory.md R44). -/
def readRegions : Instr → List Region
  | .rotl32 _ | .rotl64 _ | .fmix32 _ | .fmix64 _ => []
  | .hashX86_32 f | .hashX86_128 f | .hashX64_128 f => [keyRegion f]
  | .hashX64_128_x16 f => slotRegions f

/-- The write region of each command (20_memory.md R44); empty for the leaf commands. -/
def writeRegion : Instr → Region
  | .rotl32 f | .rotl64 f | .fmix32 f | .fmix64 f => outRegion f 0
  | .hashX86_32 f => outRegion f 4
  | .hashX86_128 f | .hashX64_128 f => outRegion f 16
  | .hashX64_128_x16 f => outRegion f 256

/-! ### Tail bytes -/

/-- Byte `j` of the tail padded with zero bytes: `tail[j] = MemRead(T + j, 1)` for `j < t`, and 0 from there on (the padded
tail of 43_hash_x86_128.md R125 and 44_hash_x64_128.md R145). -/
def tailByte (m : Memory) (addr t j : Nat) : Byte := if j < t then m.read (addr + j) else 0

/-- The key word that the tail cascade assembles from bytes `j .. j+3` (42_hash_x86_32.md R104, 43_hash_x86_128.md R125):
each byte zero-extended, shifted to its place and xored in, highest offset first (90_conflicts.md C6). -/
def tailWord32 (m : Memory) (addr t j : Nat) : Word32 :=
  let byte (i : Nat) : Word32 := (tailByte m addr t (j + i)).setWidth 32
  (((0 ^^^ byte 3 <<< 24) ^^^ byte 2 <<< 16) ^^^ byte 1 <<< 8) ^^^ byte 0

/-- The key word that the tail cascade of 44_hash_x64_128.md R145 assembles from bytes `j .. j+7`. -/
def tailWord64 (m : Memory) (addr t j : Nat) : Word64 :=
  let byte (i : Nat) : Word64 := (tailByte m addr t (j + i)).setWidth 64
  (((((((0 ^^^ byte 7 <<< 56) ^^^ byte 6 <<< 48) ^^^ byte 5 <<< 40) ^^^ byte 4 <<< 32) ^^^ byte 3 <<< 24)
    ^^^ byte 2 <<< 16) ^^^ byte 1 <<< 8) ^^^ byte 0

end Sys2Proof.Machine
end

