-- ==== Sys2Proof/Machine/Fmix.lean ====
section
/-! DEFINITION. The avalanche-mixing finalization pipeline (41_fmix.md): `fmix32`, `fmix64`, FMIX32 and FMIX64. -/
namespace Sys2Proof.Machine

/-- `fmix32(h)` (41_fmix.md R90). -/
def fmix32 (h : Word32) : Word32 :=
  let h := h ^^^ (h >>> 16)
  let h := F1_32 * h
  let h := h ^^^ (h >>> 13)
  let h := F2_32 * h
  h ^^^ (h >>> 16)

/-- `fmix64(k)` (41_fmix.md R91). -/
def fmix64 (k : Word64) : Word64 :=
  let k := k ^^^ (k >>> 33)
  let k := F1_64 * k
  let k := k ^^^ (k >>> 33)
  let k := F2_64 * k
  k ^^^ (k >>> 33)

/-- FMIX32 (41_fmix.md R92). -/
def execFmix32 (f : Fields) (s : State) : Host.Outcome State Fault Refusal :=
  let s := s.accept 0x3 f
  if rotationGiven s.latch.f then .next (s.fail .errIllegal)
  else .next (s.respond .ok ((fmix32 s.operand32).setWidth 64))

/-- FMIX64 (41_fmix.md R93). -/
def execFmix64 (f : Fields) (s : State) : Host.Outcome State Fault Refusal :=
  let s := s.accept 0x4 f
  if rotationGiven s.latch.f then .next (s.fail .errIllegal)
  else .next (s.respond .ok (fmix64 s.operand64))

end Sys2Proof.Machine
end

