-- ==== Sys2Proof/Machine/Rotate.lean ====
section
/-! DEFINITION. The bit-rotation unit (40_rotate.md): the function `rotl_w` and the commands ROTL32 and ROTL64. -/
namespace Sys2Proof.Machine

/-- `rotl_w(x, r) = shl_w(x, r) | shr_w(x, w - r)` (40_rotate.md R80). For `r = 0` it is `x` (R84), since the second part is
0. The amounts `r >= w`, which a model "must not define" (R84), are not in its domain (log 15). -/
def rotl {w : Nat} (x : BitVec w) (r : Fin w) : BitVec w := (x <<< r.val) ||| (x >>> (w - r.val))

/-- ROTL32 (40_rotate.md R81). -/
def execRotl32 (f : Fields) (s : State) : Host.Outcome State Fault Refusal :=
  let s := s.accept 0x1 f
  if h : s.latch.f.r.toNat < 32 then
    .next (s.respond .ok ((rotl s.operand32 ⟨s.latch.f.r.toNat, h⟩).setWidth 64))
  else .next (s.fail .errIllegal)

/-- ROTL64 (40_rotate.md R82): all 64 values of `R` are legal. -/
def execRotl64 (f : Fields) (s : State) : Host.Outcome State Fault Refusal :=
  let s := s.accept 0x2 f
  .next (s.respond .ok (rotl s.operand64 s.latch.f.r.toFin))

end Sys2Proof.Machine
end

