-- ==== Sys2Proof/Machine/HashX64_128.lean ====
section
/-! DEFINITION. The 128-bit digest engine over 64-bit words, HASH_X64_128 (44_hash_x64_128.md), phase by phase. The block
step, the tail fold and the finalization are functions on a pair of states, since the 16-way unit uses them lane by lane. -/
namespace Sys2Proof.Machine

/-- `mix1_64(k)` (44_hash_x64_128.md R142). -/
def mix1_64 (k : Word64) : Word64 := C2_64 * rotl (C1_64 * k) 31

/-- `mix2_64(k)` (R142). -/
def mix2_64 (k : Word64) : Word64 := C1_64 * rotl (C2_64 * k) 33

/-- `block_64(h1, h2, k1, k2)` (R144): `H2` adds the `H1` just updated. -/
def block64 (h : Word64 × Word64) (k1 k2 : Word64) : Word64 × Word64 :=
  let h1 := N1_64 + 5 * (rotl (h.1 ^^^ mix1_64 k1) 27 + h.2)
  let h2 := N2_64 + 5 * (rotl (h.2 ^^^ mix2_64 k2) 31 + h1)
  (h1, h2)

/-- The tail fold (R145, its closed form; 45_hash_x64_128_x16.md R166): each key word is mixed and xored in, with no state
update. -/
def tailFold64 (h : Word64 × Word64) (k1 k2 : Word64) : Word64 × Word64 :=
  (h.1 ^^^ mix1_64 k1, h.2 ^^^ mix2_64 k2)

/-- `H1 <- H1 + H2 ; H2 <- H2 + H1` (R146): the second addition uses the `H1` the first has just produced. -/
def crossAdd64 (h : Word64 × Word64) : Word64 × Word64 := (h.1 + h.2, h.2 + (h.1 + h.2))

/-- `final_64(h1, h2, len)` (R146). -/
def final64 (h : Word64 × Word64) (len : Word64) : Word64 × Word64 :=
  let h := crossAdd64 (h.1 ^^^ len, h.2 ^^^ len)
  crossAdd64 (fmix64 h.1, fmix64 h.2)

/-- The pair of states `(H1, H2)`. -/
def X64_128Regs.h (g : X64_128Regs) : Word64 × Word64 := (g.h1, g.h2)

/-- The registers with the pair of states replaced. -/
def X64_128Regs.withH (g : X64_128Regs) (h : Word64 × Word64) : X64_128Regs := { g with h1 := h.1, h2 := h.2 }

/-- Initialise (R141), and the block index is 0. -/
def initX64_128 (s : State) : State :=
  { s with x64_128 := s.x64_128.withH (s.seed64, s.seed64), blockIx := 0 }

/-- Block read (R143): `K1` is the word at the lower address. -/
def readBlockX64_128 (s : State) : State :=
  let at_ := s.keyAddr + 16 * s.index
  { s with x64_128 := { s.x64_128 with k1 := s.mem.read64 at_, k2 := s.mem.read64 (at_ + 8) } }

/-- One step of the block loop (R143, R144). -/
def blockX64_128 (s : State) : State :=
  let s := readBlockX64_128 s
  { s with
    x64_128 := s.x64_128.withH (block64 s.x64_128.h s.x64_128.k1 s.x64_128.k2)
    blockIx := s.blockIx + 1 }

/-- Tail read (R145): the two words of the tail padded with zero bytes. -/
def readTailX64_128 (s : State) : State :=
  let word := tailWord64 s.mem (tailAddr s.latch.f 16) (tailLen s.latch.f 16)
  { s with x64_128 := { s.x64_128 with k1 := word 0, k2 := word 8 } }

/-- Tail fold (R145): case 9 folds `K2` and case 1 folds `K1`, each if `t` reaches it; no state update. -/
def foldTailX64_128 (t : Nat) (g : X64_128Regs) : X64_128Regs :=
  let g := if 9 ≤ t then { g with h2 := g.h2 ^^^ mix2_64 g.k2 } else g
  if 1 ≤ t then { g with h1 := g.h1 ^^^ mix1_64 g.k1 } else g

/-- Tail (R145). -/
def tailX64_128 (s : State) : State :=
  let s := readTailX64_128 s
  { s with x64_128 := foldTailX64_128 (tailLen s.latch.f 16) s.x64_128 }

/-- Finalise (R146). -/
def finalX64_128 (s : State) : State := { s with x64_128 := s.x64_128.withH (final64 s.x64_128.h s.len64) }

/-- Emit (R147). -/
def emitX64_128 (s : State) : State :=
  { s with mem := (s.mem.write64 s.outAddr s.x64_128.h1).write64 (s.outAddr + 8) s.x64_128.h2 }

/-- The operation of R148, all phases in order. -/
def operationX64_128 (s : State) : State :=
  emitX64_128 (finalX64_128 (tailX64_128 (blockLoop blockX64_128 (nblocks s.latch.f 16) (initX64_128 s))))

/-- HASH_X64_128 (44_hash_x64_128.md R148). -/
def execHashX64_128 (f : Fields) (s : State) : Host.Outcome State Fault Refusal :=
  let s := s.accept 0x7 f
  let f := s.latch.f
  .next (s.runChecked
    (checkCommand s.cfg (rotationGiven f) (lenTooLong f) [keyRegion f] (outRegion f 16)) operationX64_128)

end Sys2Proof.Machine
end

