-- ==== Sys2Proof/Machine/HashX64_128_x16.lean ====
section
/-! DEFINITION. The 16-way vectorized 128-bit digest engine, HASH_X64_128_X16 (45_hash_x64_128_x16.md), phase by phase. Every
operation is applied to each lane separately (R168); key `n` is lane `n mod 8` of group `floor(n / 8)` (R162). -/
namespace Sys2Proof.Machine

/-- The pair of states `(VH[g][1][l], VH[g][2][l])` of lane `l`. -/
def VGroup.h (g : VGroup) (l : Fin 8) : Word64 × Word64 := (g.vh1.lane l, g.vh2.lane l)

/-- The group with every lane's pair of states replaced. -/
def VGroup.withH (g : VGroup) (h : Fin 8 → Word64 × Word64) : VGroup :=
  { g with vh1 := VReg.ofLanes fun l => (h l).1, vh2 := VReg.ofLanes fun l => (h l).2 }

/-- `VK[g][1] <- Slot(g, j) ; VK[g][2] <- Slot(g, j + 1)`, the buffer being at `base` (45_hash_x64_128_x16.md R163). -/
def VGroup.load (g : VGroup) (m : Memory) (base j : Nat) : VGroup :=
  { g with vk1 := m.slot base j, vk2 := m.slot base (j + 1) }

/-- `zext_64(SEED)` in every lane of both states (R164). -/
def VGroup.seed (g : VGroup) (seed : Word64) : VGroup := g.withH fun _ => (seed, seed)

/-- The block step of every lane on the key words loaded (R165). -/
def VGroup.block (g : VGroup) : VGroup := g.withH fun l => block64 (g.h l) (g.vk1.lane l) (g.vk2.lane l)

/-- The tail fold of every lane on the key words loaded (R166). -/
def VGroup.fold (g : VGroup) : VGroup := g.withH fun l => tailFold64 (g.h l) (g.vk1.lane l) (g.vk2.lane l)

/-- The finalization of every lane (R167). -/
def VGroup.final (g : VGroup) (len : Word64) : VGroup := g.withH fun l => final64 (g.h l) len

/-- The words that R169 emits for the eight keys of a group, `h1` then `h2` of each key. -/
def VGroup.words (g : VGroup) : List Word64 :=
  [ g.vh1.l0, g.vh2.l0, g.vh1.l1, g.vh2.l1, g.vh1.l2, g.vh2.l2, g.vh1.l3, g.vh2.l3,
    g.vh1.l4, g.vh2.l4, g.vh1.l5, g.vh2.l5, g.vh1.l6, g.vh2.l6, g.vh1.l7, g.vh2.l7 ]

/-- Initialise (R164), and the block index is 0. -/
def initX16 (s : State) : State :=
  { s with group0 := s.group0.seed s.seed64, group1 := s.group1.seed s.seed64, blockIx := 0 }

/-- `VK` of both groups loaded from slots `j` and `j + 1` of their buffers. -/
def loadX16 (j : Nat) (s : State) : State :=
  { s with group0 := s.group0.load s.mem s.keyAddr j, group1 := s.group1.load s.mem s.keyAddr2 j }

/-- One step of the block loop (R165): slots `2*I` and `2*I + 1`. -/
def blockX16 (s : State) : State :=
  let s := loadX16 (2 * s.index) s
  { s with group0 := s.group0.block, group1 := s.group1.block, blockIx := s.blockIx + 1 }

/-- Extra fold (R166), only when `PEND_LEN > LEN`: slots `2*nblocks` and `2*nblocks + 1`. -/
def extraX16 (s : State) : State :=
  if extraBlock s.latch.f then
    let s := loadX16 (2 * nblocks s.latch.f 16) s
    { s with group0 := s.group0.fold, group1 := s.group1.fold }
  else s

/-- Finalise (R167): the length xored in is `LEN`, never `PEND_LEN`. -/
def finalX16 (s : State) : State :=
  { s with group0 := s.group0.final s.len64, group1 := s.group1.final s.len64 }

/-- Emit (R169): 32 words, keys 0 to 15 in order. -/
def emitX16 (s : State) : State :=
  { s with mem := s.mem.writeWords64 s.outAddr (s.group0.words ++ s.group1.words) }

/-- The operation of R171, all phases in order. -/
def operationX16 (s : State) : State :=
  emitX16 (finalX16 (extraX16 (blockLoop blockX16 (nblocks s.latch.f 16) (initX16 s))))

/-- HASH_X64_128_X16 (45_hash_x64_128_x16.md R171). -/
def execHashX64_128_x16 (f : Fields) (s : State) : Host.Outcome State Fault Refusal :=
  let s := s.accept 0x8 f
  let f := s.latch.f
  .next (s.runChecked
    (checkCommand s.cfg (rotationGiven f) (lenTooLong f || pendLenTooLong f) (slotRegions f) (outRegion f 256)) operationX16)

end Sys2Proof.Machine
end

