-- ==== Sys2Proof/Machine/HashX86_128.lean ====
section
/-! DEFINITION. The 128-bit digest engine over 32-bit words, HASH_X86_128 (43_hash_x86_128.md), phase by phase. -/
namespace Sys2Proof.Machine

/-- `mix1_128(k)` (43_hash_x86_128.md R122). -/
def mix1_128 (k : Word32) : Word32 := C2_128 * rotl (C1_128 * k) 15

/-- `mix2_128(k)` (R122). -/
def mix2_128 (k : Word32) : Word32 := C3_128 * rotl (C2_128 * k) 16

/-- `mix3_128(k)` (R122). -/
def mix3_128 (k : Word32) : Word32 := C4_128 * rotl (C3_128 * k) 17

/-- `mix4_128(k)` (R122). -/
def mix4_128 (k : Word32) : Word32 := C1_128 * rotl (C4_128 * k) 18

/-- Initialise (R121), and the block index is 0. -/
def initX86_128 (s : State) : State :=
  { s with
    x86_128 := { s.x86_128 with h1 := s.seed32, h2 := s.seed32, h3 := s.seed32, h4 := s.seed32 }
    blockIx := 0 }

/-- Block read (R123): the four words of block `I`, `K1` at the lowest address. -/
def readBlockX86_128 (s : State) : State :=
  let at_ := s.keyAddr + 16 * s.index
  { s with x86_128 := { s.x86_128 with
      k1 := s.mem.read32 at_, k2 := s.mem.read32 (at_ + 4), k3 := s.mem.read32 (at_ + 8), k4 := s.mem.read32 (at_ + 12) } }

/-- The four state updates of one block, strictly in the order 1, 2, 3, 4 (R124): `H4` adds the `H1` just updated. -/
def foldX86_128 (g : X86_128Regs) : X86_128Regs :=
  let g := { g with h1 := N1_128 + 5 * (rotl (g.h1 ^^^ mix1_128 g.k1) 19 + g.h2) }
  let g := { g with h2 := N2_128 + 5 * (rotl (g.h2 ^^^ mix2_128 g.k2) 17 + g.h3) }
  let g := { g with h3 := N3_128 + 5 * (rotl (g.h3 ^^^ mix3_128 g.k3) 15 + g.h4) }
  { g with h4 := N4_128 + 5 * (rotl (g.h4 ^^^ mix4_128 g.k4) 13 + g.h1) }

/-- One step of the block loop (R123, R124). -/
def blockX86_128 (s : State) : State :=
  let s := readBlockX86_128 s
  { s with x86_128 := foldX86_128 s.x86_128, blockIx := s.blockIx + 1 }

/-- Tail read (R125): the four words of the tail padded with zero bytes. -/
def readTailX86_128 (s : State) : State :=
  let word := tailWord32 s.mem (tailAddr s.latch.f 16) (tailLen s.latch.f 16)
  { s with x86_128 := { s.x86_128 with k1 := word 0, k2 := word 4, k3 := word 8, k4 := word 12 } }

/-- Tail fold (R125): case 13 folds `K4`, case 9 `K3`, case 5 `K2`, case 1 `K1`, each if `t` reaches it; no state update. -/
def foldTailX86_128 (t : Nat) (g : X86_128Regs) : X86_128Regs :=
  let g := if 13 ≤ t then { g with h4 := g.h4 ^^^ mix4_128 g.k4 } else g
  let g := if 9 ≤ t then { g with h3 := g.h3 ^^^ mix3_128 g.k3 } else g
  let g := if 5 ≤ t then { g with h2 := g.h2 ^^^ mix2_128 g.k2 } else g
  if 1 ≤ t then { g with h1 := g.h1 ^^^ mix1_128 g.k1 } else g

/-- Tail (R125). -/
def tailX86_128 (s : State) : State :=
  let s := readTailX86_128 s
  { s with x86_128 := foldTailX86_128 (tailLen s.latch.f 16) s.x86_128 }

/-- The cross-add of R126: add-forward into `H1`, then add-dependent, which uses the new `H1`. -/
def crossAddX86_128 (g : X86_128Regs) : X86_128Regs :=
  let h1 := g.h1 + g.h2 + g.h3 + g.h4
  { g with h1 := h1, h2 := g.h2 + h1, h3 := g.h3 + h1, h4 := g.h4 + h1 }

/-- The finalization of the four states (R126), `len` being `LEN`. -/
def finishX86_128 (len : Word32) (g : X86_128Regs) : X86_128Regs :=
  let g := { g with h1 := g.h1 ^^^ len, h2 := g.h2 ^^^ len, h3 := g.h3 ^^^ len, h4 := g.h4 ^^^ len }
  let g := crossAddX86_128 g
  let g := { g with h1 := fmix32 g.h1, h2 := fmix32 g.h2, h3 := fmix32 g.h3, h4 := fmix32 g.h4 }
  crossAddX86_128 g

/-- Finalise (R126). -/
def finalX86_128 (s : State) : State := { s with x86_128 := finishX86_128 s.len32 s.x86_128 }

/-- Emit (R127). -/
def emitX86_128 (s : State) : State :=
  let m := s.mem.write32 s.outAddr s.x86_128.h1
  let m := m.write32 (s.outAddr + 4) s.x86_128.h2
  let m := m.write32 (s.outAddr + 8) s.x86_128.h3
  { s with mem := m.write32 (s.outAddr + 12) s.x86_128.h4 }

/-- The operation of R128, all phases in order. -/
def operationX86_128 (s : State) : State :=
  emitX86_128 (finalX86_128 (tailX86_128 (blockLoop blockX86_128 (nblocks s.latch.f 16) (initX86_128 s))))

/-- HASH_X86_128 (43_hash_x86_128.md R128). -/
def execHashX86_128 (f : Fields) (s : State) : Host.Outcome State Fault Refusal :=
  let s := s.accept 0x6 f
  let f := s.latch.f
  .next (s.runChecked
    (checkCommand s.cfg (rotationGiven f) (lenTooLong f) [keyRegion f] (outRegion f 16)) operationX86_128)

end Sys2Proof.Machine
end

