-- ==== Sys2Proof/Machine/HashX86_32.lean ====
section
/-! DEFINITION. The 32-bit digest engine, HASH_X86_32 (42_hash_x86_32.md), phase by phase. -/
namespace Sys2Proof.Machine

/-- `mix_32(k)` (42_hash_x86_32.md R102). -/
def mix32 (k : Word32) : Word32 := C2_32 * rotl (C1_32 * k) 15

/-- Initialise (R101): `H <- SEED`, and the block index is 0. -/
def initX86_32 (s : State) : State := { s with x86_32 := { s.x86_32 with h := s.seed32 }, blockIx := 0 }

/-- `H` after one block whose mixed key word is `k` (R103). -/
def foldX86_32 (h k : Word32) : Word32 := N_32 + 5 * rotl (h ^^^ k) 13

/-- One step of the block loop (R103). -/
def blockX86_32 (s : State) : State :=
  let k := mix32 (s.mem.read32 (s.keyAddr + 4 * s.index))
  { s with x86_32 := ⟨foldX86_32 s.x86_32.h k, k⟩, blockIx := s.blockIx + 1 }

/-- Tail (R104): `K` is 0, then the tail bytes; if there are any it is mixed and xored into `H`, with no state update. -/
def tailX86_32 (s : State) : State :=
  let t := tailLen s.latch.f 4
  let k := tailWord32 s.mem (tailAddr s.latch.f 4) t 0
  if 1 ≤ t then { s with x86_32 := ⟨s.x86_32.h ^^^ mix32 k, mix32 k⟩ }
  else { s with x86_32 := ⟨s.x86_32.h, k⟩ }

/-- Finalise (R105). -/
def finalX86_32 (s : State) : State :=
  { s with x86_32 := { s.x86_32 with h := fmix32 (s.x86_32.h ^^^ s.len32) } }

/-- Emit (R106). -/
def emitX86_32 (s : State) : State := { s with mem := s.mem.write32 s.outAddr s.x86_32.h }

/-- The operation of R107, all phases in order. -/
def operationX86_32 (s : State) : State :=
  emitX86_32 (finalX86_32 (tailX86_32 (blockLoop blockX86_32 (nblocks s.latch.f 4) (initX86_32 s))))

/-- HASH_X86_32 (42_hash_x86_32.md R107). -/
def execHashX86_32 (f : Fields) (s : State) : Host.Outcome State Fault Refusal :=
  let s := s.accept 0x5 f
  let f := s.latch.f
  .next (s.runChecked
    (checkCommand s.cfg (rotationGiven f) (lenTooLong f) [keyRegion f] (outRegion f 4)) operationX86_32)

end Sys2Proof.Machine
end

