-- ==== Sys2Proof/Machine/Dispatch.lean ====
section
/-! DEFINITION. One arm per command: the meaning of a decoded command at a state, up to the forming of its response. -/
namespace Sys2Proof.Machine

def exec (i : Instr) (s : State) : Host.Outcome State Fault Refusal :=
  match i with
  | .rotl32 f => Sys2Proof.Machine.execRotl32 f s
  | .rotl64 f => Sys2Proof.Machine.execRotl64 f s
  | .fmix32 f => Sys2Proof.Machine.execFmix32 f s
  | .fmix64 f => Sys2Proof.Machine.execFmix64 f s
  | .hashX86_32 f => Sys2Proof.Machine.execHashX86_32 f s
  | .hashX86_128 f => Sys2Proof.Machine.execHashX86_128 f s
  | .hashX64_128 f => Sys2Proof.Machine.execHashX64_128 f s
  | .hashX64_128_x16 f => Sys2Proof.Machine.execHashX64_128_x16 f s

end Sys2Proof.Machine
end

