-- ==== Sys2Proof/Machine/Inputs.lean ====
section
/-! DEFINITION. What each input from outside does: a command packet is accepted, run to its end and answered (60_exceptions.md
R190, R202); hosts store to memory; the platform changes what is accessible; reset falls between commands or inside one. -/
namespace Sys2Proof.Machine

/-- The outcome with the next state, if there is one, carried on by `k`. -/
def carryOn (o : Host.Outcome State Fault Refusal) (k : State → State) : Host.Outcome State Fault Refusal :=
  match o with
  | .next t => .next (k t)
  | .fault e => .fault e
  | .refused e => .refused e

/-- A packet that is no command (30_encoding.md R65): it is latched as any packet (10_state.md R21; log 14), "reads nothing
and writes nothing", and fails with `ERR_ILLEGAL`. -/
def rejectPacket (p : Packet) (s : State) : State := (s.accept p.op p.fields).fail .errIllegal

/-- A packet accepted and run to its end, the response formed and not yet sent: the decoded command's meaning, or rejection
(60_exceptions.md R193 step 1). -/
def runPacket (p : Packet) (s : State) : Host.Outcome State Fault Refusal :=
  match decode p with
  | .ok i => exec i s
  | .error _ => .next (rejectPacket p s)

/-- The write region of a packet (20_memory.md R44); an illegal packet has none. -/
def packetWrites (p : Packet) : Region :=
  match decode p with
  | .ok i => writeRegion i
  | .error _ => ⟨0, 0⟩

/-- The read regions of a packet (20_memory.md R44); an illegal packet has none. -/
def packetReads (p : Packet) : List Region :=
  match decode p with
  | .ok i => readRegions i
  | .error _ => []

/-- A byte of the packet's read regions or of its write region. -/
def inPacketRegions (p : Packet) (a : Nat) : Bool :=
  (packetWrites p).contains a || (packetReads p).any fun g => g.contains a

/-- Every byte `base + k`, `k < n`, of the memory replaced by `byte k`. -/
def Memory.fill (m : Memory) (base : Nat) (byte : Nat → Byte) : Nat → Memory
  | 0 => m
  | n + 1 => (m.fill base byte n).write (base + n) (byte n)

/-- Another agent stores `cells` while the command runs (70_reset_and_hazards.md R224). The stores land. If the command
succeeded and one of them fell in its regions, the digest is unspecified: every byte of the write region is a free byte.
"nothing else goes wrong: the command still completes and still returns `OK`". -/
def disturb (p : Packet) (cells : List Host.Cell) (t : State) : State :=
  let m := t.mem.store cells
  if t.status = Status.ok.code && cells.any (fun c => inPacketRegions p c.1) then
    { t with
      mem := m.fill (packetWrites p).base (Config.freeByte t.draws) (packetWrites p).size
      draws := t.draws + 1 }
  else { t with mem := m }

/-- Reset has fallen inside a command that would have ended in state `t` (70_reset_and_hazards.md R222): each byte of the write
region holds the old byte (of memory `m`) or the byte the command would have written, by a free choice. A command that would
have failed writes nothing (60_exceptions.md R195), cut short or not. -/
def halfWritten (p : Packet) (m : Memory) (t : State) : State :=
  let g := packetWrites p
  let byte (k : Nat) : Byte :=
    if Config.freePick t.draws k then t.mem.read (g.base + k) else m.read (g.base + k)
  { t with mem := if t.status = Status.ok.code then m.fill g.base byte g.size else m }

/-- A command cut short by reset: its write region is left half written, no response is sent (70_reset_and_hazards.md R222), and
the registers are unspecified as after any reset (R220). -/
def cutShort (p : Packet) (m : Memory) (t : State) : State := (halfWritten p m t).forget

/-- A command whose buffers another agent writes and that reset then cuts short. DESIGN CHOICE (log 25): the stores do to the half
written memory what they do to a finished command's (R224), and no response is sent (R222). -/
def disturbAndCut (p : Packet) (m : Memory) (cells : List Host.Cell) (t : State) : State :=
  (disturb p cells (halfWritten p m t)).forget

/-- The first stored address, if any, that does not exist (10_state.md R25). -/
def outsideMemory (c : Config) (cells : List Host.Cell) : Option Nat :=
  (cells.find? fun x => c.memSize ≤ x.1).map (·.1)

/-- One input taken. A host's store to an address that does not exist is a fault (log 9). -/
def takeInput (e : Input) (s : State) : Host.Outcome State Fault Refusal :=
  match e with
  | .command host p => carryOn (runPacket p s) (·.deliver host)
  | .commandRaced host p cells =>
    match outsideMemory s.cfg cells with
    | some a => .fault (.hostStoreOutsideMemory a)
    | none => carryOn (runPacket p s) fun t => (disturb p cells t).deliver host
  | .commandCut _ p => carryOn (runPacket p s) (cutShort p s.mem)
  | .commandRacedCut _ p cells =>
    match outsideMemory s.cfg cells with
    | some a => .fault (.hostStoreOutsideMemory a)
    | none => carryOn (runPacket p s) (disturbAndCut p s.mem cells)
  | .store a b =>
    match outsideMemory s.cfg [(a, b)] with
    | some a => .fault (.hostStoreOutsideMemory a)
    | none => .next { s with mem := s.mem.write a b }
  | .setAccess noRead noWrite => .next { s with cfg := { s.cfg with noRead := noRead, noWrite := noWrite } }
  | .reset => .next s.forget

end Sys2Proof.Machine
end

