-- ==== Sys2Proof/Machine/Step.lean ====
section
/-! DEFINITION. One step of the machine. The engine fetches no instructions (10_state.md R27, 20_memory.md R51): a step takes
the next input that has reached the engine (log 1). -/
namespace Sys2Proof.Machine

/-- One step: the next input is taken; with none, the engine is idle and stays as it is (60_exceptions.md R200; log 8). -/
def step (s : State) : Host.Outcome State Fault Refusal :=
  match s.inputs with
  | [] => .next s
  | e :: rest => takeInput e { s with inputs := rest }

/-- The state with the packet of an opcode-table word as the very next input, sent by host 0 (log 1). -/
def State.withFetchWord (s : State) (nbits w : Nat) : State :=
  { s with inputs := .command 0 (packetOfTableWord nbits w) :: s.inputs }

end Sys2Proof.Machine
end

