-- ==== Sys2Proof/Safety.lean ====
section
/-! DEFINITION. The terms in which claims are made: when a command passes its checks, said byte by byte; the invariant of the
machine; the digests as functions of the key's bytes, written from the rules without the machine; the layout of the 16 keys
of a batch; which states agree where a command looks. -/
namespace Sys2Proof.Machine

/-! ### Checks, byte by byte (60_exceptions.md R193) -/

/-- A byte of the region. -/
def Within (g : Region) (a : Nat) : Prop := g.base ≤ a ∧ a < g.base + g.size

/-- `Fits(base, n)`: "`base < 2^AW and base + n <= 2^AW`". -/
def Fits (c : Config) (g : Region) : Prop := g.base < 2 ^ c.aw ∧ g.base + g.size ≤ 2 ^ c.aw

/-- Step 3 passes: every read region that is not empty fits, and the write region fits. -/
def RegionsFit (c : Config) (reads : List Region) (write : Region) : Prop :=
  (∀ g ∈ reads, 0 < g.size → Fits c g) ∧ Fits c write

/-- Step 4 passes: every byte of every read region is `Readable`. -/
def AllReadable (c : Config) (reads : List Region) : Prop :=
  ∀ g ∈ reads, ∀ a, Within g a → c.readable a = true

/-- Step 5 passes: every byte of the write region is `Writable`. -/
def AllWritable (c : Config) (write : Region) : Prop := ∀ a, Within write a → c.writable a = true

/-- The command is one of the four leaf commands, which "finish here with OK" after step 1. -/
def Leaf : Instr → Prop
  | .rotl32 _ | .rotl64 _ | .fmix32 _ | .fmix64 _ => True
  | .hashX86_32 _ | .hashX86_128 _ | .hashX64_128 _ | .hashX64_128_x16 _ => False

/-- Step 2 passes: `LEN < 2^31`, and for `OP = 0x8` also `PEND_LEN < 2^31`. -/
def LengthsLegal : Instr → Prop
  | .rotl32 _ | .rotl64 _ | .fmix32 _ | .fmix64 _ => True
  | .hashX86_32 f | .hashX86_128 f | .hashX64_128 f => f.len.toNat < 2 ^ 31
  | .hashX64_128_x16 f => f.len.toNat < 2 ^ 31 ∧ f.pendLen.toNat < 2 ^ 31

/-- The command passes every check of 60_exceptions.md R193, so that it reaches step 6. -/
def Executes (i : Instr) (c : Config) : Prop :=
  i.wellFormed = true ∧ (Leaf i ∨
    (LengthsLegal i ∧ RegionsFit c (readRegions i) (writeRegion i) ∧ AllReadable c (readRegions i)
      ∧ AllWritable c (writeRegion i)))

/-- The check order of 60_exceptions.md R193: the status of a decoded command is the one whose condition holds here, each
condition saying that the earlier steps pass and the status's own step does not. -/
def Verdict (i : Instr) (c : Config) : Status → Prop
  | .errIllegal => i.wellFormed = false
  | .errLen => i.wellFormed = true ∧ ¬Leaf i ∧ ¬LengthsLegal i
  | .errAddr => i.wellFormed = true ∧ ¬Leaf i ∧ LengthsLegal i ∧ ¬RegionsFit c (readRegions i) (writeRegion i)
  | .errRead => i.wellFormed = true ∧ ¬Leaf i ∧ LengthsLegal i ∧ RegionsFit c (readRegions i) (writeRegion i)
      ∧ ¬AllReadable c (readRegions i)
  | .errWrite => i.wellFormed = true ∧ ¬Leaf i ∧ LengthsLegal i ∧ RegionsFit c (readRegions i) (writeRegion i)
      ∧ AllReadable c (readRegions i) ∧ ¬AllWritable c (writeRegion i)
  | .ok => Executes i c

/-- The command has failed with the status (00_scope.md R10, 60_exceptions.md R195): `STATUS` holds its code, `RES` is 0, and
memory, the platform's parameters and both ports are as before. -/
structure Failed (st : Status) (s t : State) : Prop where
  status    : t.status = st.code
  res       : t.res = 0
  mem       : t.mem = s.mem
  cfg       : t.cfg = s.cfg
  inputs    : t.inputs = s.inputs
  responses : t.responses = s.responses

/-! ### What a command uses -/

/-- The two are the same command and agree on every field that it uses or that is checked (30_encoding.md R62); the fields it
ignores may differ. -/
def SameUsed : Instr → Instr → Prop
  | .rotl32 f, .rotl32 g | .fmix32 f, .fmix32 g => f.r = g.r ∧ (f.a.setWidth 32 : Word32) = g.a.setWidth 32
  | .rotl64 f, .rotl64 g | .fmix64 f, .fmix64 g => f.r = g.r ∧ f.a = g.a
  | .hashX86_32 f, .hashX86_32 g | .hashX86_128 f, .hashX86_128 g | .hashX64_128 f, .hashX64_128 g =>
    f.r = g.r ∧ f.seed = g.seed ∧ f.len = g.len ∧ f.a = g.a ∧ f.out = g.out
  | .hashX64_128_x16 f, .hashX64_128_x16 g => f = g
  | _, _ => False

/-! ### The invariant of the machine -/

/-- A response packet of the form of 30_encoding.md R63: its status is one of the six codes of 60_exceptions.md R191, its
bits 63:8 are 0, and a failed command's `RES` is 0. -/
def LegalResponse (q : ResponsePacket) : Prop :=
  (q.extractLsb' 0 8).toNat ≤ 5 ∧ q.extractLsb' 8 56 = 0 ∧ (q.extractLsb' 0 8 ≠ 0 → q.extractLsb' 64 64 = 0)

/-- What every step keeps: legal parameters `AW` and `NENG`, memory in canonical form and inside the address space (10_state.md R25),
and every response sent of the legal form. -/
structure State.Inv (s : State) : Prop where
  width     : s.cfg.wf = true
  memory    : s.mem.wf = true
  inside    : s.mem.within (2 ^ s.cfg.aw) = true
  responses : ∀ r ∈ s.responses, LegalResponse r.packet

/-- The engine is idle (70_reset_and_hazards.md R220): no command in progress or waiting, no response pending. -/
def State.Idle (s : State) : Prop := s.inputs = [] ∧ s.responses = []

/-! ### Agreement of two states -/

/-- The two memories hold the same bytes in every region of the list. -/
def AgreeOn (gs : List Region) (m m' : Memory) : Prop := ∀ g ∈ gs, ∀ a, Within g a → m.read a = m'.read a

/-- The bytes at `addr, .., addr + n - 1`. -/
def bytesAt (m : Memory) (addr n : Nat) : List Byte := (List.range n).map fun k => m.read (addr + k)

/-! ### The digests as functions of the key's bytes

`key` is the key, its length is `LEN`. Everything here is written from the family files' rules over lists of bytes; nothing
of the machine is used. Words are assembled little-endian (20_memory.md R40), a short last word being padded with zero
bytes (the closed form of the tail, 42_hash_x86_32.md R104, 43_hash_x86_128.md R125, 44_hash_x64_128.md R145). -/

/-- The number whose byte `i` is byte `i` of the list. -/
def leNat : List Byte → Nat
  | [] => 0
  | b :: bs => b.toNat + 256 * leNat bs

/-- Bytes `i, .., i + n - 1` of the key as a little-endian word of `w` bits, missing bytes being zero. -/
def keyWord (w : Nat) (key : List Byte) (i n : Nat) : BitVec w := BitVec.ofNat w (leNat ((key.drop i).take n))

/-- The `w / 8` bytes of a word, the least significant first (20_memory.md R41). -/
def wordBytes {w : Nat} (n : Nat) (v : BitVec w) : List Byte := (List.range n).map fun k => v.extractLsb' (8 * k) 8

/-- Multiply, rotate left, multiply: the shape of every key-word mix (R102, R122, R142). -/
def mixWord {w : Nat} (c : BitVec w) (r : Nat) (d k : BitVec w) : BitVec w := d * (c * k).rotateLeft r

/-- Xor with the own right shift, twice followed by a multiplication: the shape of the finalization mix (R90, R91). -/
def avalanche {w : Nat} (p q r : Nat) (c d h : BitVec w) : BitVec w :=
  let h := c * (h ^^^ (h >>> p))
  let h := d * (h ^^^ (h >>> q))
  h ^^^ (h >>> r)

/-- `fmix32` (41_fmix.md R90). -/
def avalanche32 (h : Word32) : Word32 := avalanche 16 13 16 0x85ebca6b 0xc2b2ae35 h

/-- `fmix64` (41_fmix.md R91). -/
def avalanche64 (h : Word64) : Word64 := avalanche 33 33 33 0xff51afd7ed558ccd 0xc4ceb9fe1a85ec53 h

/-- The digest of HASH_X86_32 (42_hash_x86_32.md R101 to R105). -/
def digestX86_32 (seed : Word32) (key : List Byte) : Word32 :=
  let mix := mixWord (0xcc9e2d51 : Word32) 15 0x1b873593
  let n := key.length / 4
  let h := (List.range n).foldl
    (fun h i => 0xe6546b64 + 5 * (h ^^^ mix (keyWord 32 key (4 * i) 4)).rotateLeft 13) seed
  let h := h ^^^ mix (keyWord 32 key (4 * n) 4)
  avalanche32 (h ^^^ BitVec.ofNat 32 key.length)

/-- The block step of HASH_X86_128 on the four states and the four key words (43_hash_x86_128.md R122, R124). -/
def blockStepX86_128 (h : Word32 × Word32 × Word32 × Word32) (k1 k2 k3 k4 : Word32) :
    Word32 × Word32 × Word32 × Word32 :=
  let (h1, h2, h3, h4) := h
  let h1 := 0x561ccd1b + 5 * ((h1 ^^^ mixWord 0x239b961b 15 0xab0e9789 k1).rotateLeft 19 + h2)
  let h2 := 0x0bcaa747 + 5 * ((h2 ^^^ mixWord 0xab0e9789 16 0x38b34ae5 k2).rotateLeft 17 + h3)
  let h3 := 0x96cd1c35 + 5 * ((h3 ^^^ mixWord 0x38b34ae5 17 0xa1e38b93 k3).rotateLeft 15 + h4)
  let h4 := 0x32ac3b17 + 5 * ((h4 ^^^ mixWord 0xa1e38b93 18 0x239b961b k4).rotateLeft 13 + h1)
  (h1, h2, h3, h4)

/-- Add-forward, then add-dependent (43_hash_x86_128.md R126). -/
def crossAdd4 (h : Word32 × Word32 × Word32 × Word32) : Word32 × Word32 × Word32 × Word32 :=
  let (h1, h2, h3, h4) := h
  let h1 := h1 + h2 + h3 + h4
  (h1, h2 + h1, h3 + h1, h4 + h1)

/-- The digest of HASH_X86_128 (43_hash_x86_128.md R121 to R126). -/
def digestX86_128 (seed : Word32) (key : List Byte) : Word32 × Word32 × Word32 × Word32 :=
  let n := key.length / 16
  let word (i : Nat) := keyWord 32 key i 4
  let h := (List.range n).foldl
    (fun h i => blockStepX86_128 h (word (16 * i)) (word (16 * i + 4)) (word (16 * i + 8)) (word (16 * i + 12)))
    (seed, seed, seed, seed)
  let len := BitVec.ofNat 32 key.length
  let h := (h.1 ^^^ mixWord 0x239b961b 15 0xab0e9789 (word (16 * n)) ^^^ len,
    h.2.1 ^^^ mixWord 0xab0e9789 16 0x38b34ae5 (word (16 * n + 4)) ^^^ len,
    h.2.2.1 ^^^ mixWord 0x38b34ae5 17 0xa1e38b93 (word (16 * n + 8)) ^^^ len,
    h.2.2.2 ^^^ mixWord 0xa1e38b93 18 0x239b961b (word (16 * n + 12)) ^^^ len)
  let h := crossAdd4 h
  crossAdd4 (avalanche32 h.1, avalanche32 h.2.1, avalanche32 h.2.2.1, avalanche32 h.2.2.2)

/-- The block step of HASH_X64_128 (44_hash_x64_128.md R142, R144). -/
def blockStepX64_128 (h : Word64 × Word64) (k1 k2 : Word64) : Word64 × Word64 :=
  let h1 := 0x52dce729 + 5 * ((h.1 ^^^ mixWord 0x87c37b91114253d5 31 0x4cf5ad432745937f k1).rotateLeft 27 + h.2)
  let h2 := 0x38495ab5 + 5 * ((h.2 ^^^ mixWord 0x4cf5ad432745937f 33 0x87c37b91114253d5 k2).rotateLeft 31 + h1)
  (h1, h2)

/-- `h1 += h2 ; h2 += h1` (44_hash_x64_128.md R146). -/
def crossAdd2 (h : Word64 × Word64) : Word64 × Word64 :=
  let h1 := h.1 + h.2
  (h1, h.2 + h1)

/-- The digest of HASH_X64_128 (44_hash_x64_128.md R141 to R146). -/
def digestX64_128 (seed : Word32) (key : List Byte) : Word64 × Word64 :=
  let n := key.length / 16
  let word (i : Nat) := keyWord 64 key i 8
  let h := (List.range n).foldl (fun h i => blockStepX64_128 h (word (16 * i)) (word (16 * i + 8)))
    (seed.setWidth 64, seed.setWidth 64)
  let len := BitVec.ofNat 64 key.length
  let h := crossAdd2 (h.1 ^^^ mixWord 0x87c37b91114253d5 31 0x4cf5ad432745937f (word (16 * n)) ^^^ len,
    h.2 ^^^ mixWord 0x4cf5ad432745937f 33 0x87c37b91114253d5 (word (16 * n + 8)) ^^^ len)
  crossAdd2 (avalanche64 h.1, avalanche64 h.2)

/-! ### Results and digests as the host sees them -/

/-- `RES` of a command that succeeds: the result of a leaf command, 0 for a HASH command (30_encoding.md R63). -/
def resultOf : Instr → Word64
  | .rotl32 f => ((f.a.setWidth 32 : Word32).rotateLeft f.r.toNat).setWidth 64
  | .rotl64 f => f.a.rotateLeft f.r.toNat
  | .fmix32 f => (avalanche32 (f.a.setWidth 32)).setWidth 64
  | .fmix64 f => avalanche64 f.a
  | .hashX86_32 _ | .hashX86_128 _ | .hashX64_128 _ | .hashX64_128_x16 _ => 0

/-- The 16 bytes of a digest of two 64-bit words, the first word at the lowest address (44_hash_x64_128.md R147). -/
def pairBytes (h : Word64 × Word64) : List Byte := wordBytes 8 h.1 ++ wordBytes 8 h.2

/-- The 16 bytes of a digest of four 32-bit words, the first word at the lowest address (43_hash_x86_128.md R127). -/
def quadBytes (h : Word32 × Word32 × Word32 × Word32) : List Byte :=
  wordBytes 4 h.1 ++ wordBytes 4 h.2.1 ++ wordBytes 4 h.2.2.1 ++ wordBytes 4 h.2.2.2

/-! ### The batch layout (45_hash_x64_128_x16.md R163, R170) -/

/-- The address of byte `p` of the key in lane `l` of a buffer at `base` (R163: "byte `p` of key `n` ... is the byte at
address `base_g + 64 * floor(p / 8) + 8*l + (p mod 8)`"). -/
def laneByteAddr (base l p : Nat) : Nat := base + 64 * (p / 8) + 8 * l + p % 8

/-- The key word in lane `l` of slot `j` of a buffer at `base` (R163): the 8 bytes at `base + 64*j + 8*l`, little-endian. -/
def slotWord (m : Memory) (base l j : Nat) : Word64 := BitVec.ofNat 64 (leNat (bytesAt m (base + 64 * j + 8 * l) 8))

/-- The digest of one lane, whose key word of slot `j` is `word j` (45_hash_x64_128_x16.md R164 to R167). It is determined
whether or not the host has kept its contract (R173). -/
def digestLane (seed len pendLen : Word32) (word : Nat → Word64) : Word64 × Word64 :=
  let n := len.toNat / 16
  let h := (List.range n).foldl (fun h i => blockStepX64_128 h (word (2 * i)) (word (2 * i + 1)))
    (seed.setWidth 64, seed.setWidth 64)
  let h := if len < pendLen then
      (h.1 ^^^ mixWord 0x87c37b91114253d5 31 0x4cf5ad432745937f (word (2 * n)),
        h.2 ^^^ mixWord 0x4cf5ad432745937f 33 0x87c37b91114253d5 (word (2 * n + 1)))
    else h
  let h := crossAdd2 (h.1 ^^^ len.setWidth 64, h.2 ^^^ len.setWidth 64)
  crossAdd2 (avalanche64 h.1, avalanche64 h.2)

/-- The digest of key `n` of a batch command on memory `m`: key `n` is lane `n mod 8` of the buffer at `A` for `n < 8` and of
the buffer at `B` from there on (45_hash_x64_128_x16.md R162). -/
def batchDigest (m : Memory) (f : Fields) (n : Nat) : Word64 × Word64 :=
  digestLane f.seed f.len f.pendLen (slotWord m (if n < 8 then f.a.toNat else f.b.toNat) (n % 8))

/-- The host's contract for the key in lane `l` of the buffer at `base` (R170): (a) full blocks and (b) tail bytes lie where
R163 puts them; (b) with a tail, `PEND_LEN > LEN` and the extra block is padded with zero bytes; (c) with no tail,
`PEND_LEN <= LEN`, or the extra block is all zero. -/
structure LaidOut (m : Memory) (base l : Nat) (key : List Byte) (pendLen : Nat) : Prop where
  bytes   : ∀ p, p < key.length → m.read (laneByteAddr base l p) = key.getD p 0
  tail    : key.length % 16 ≠ 0 → key.length < pendLen
  padding : key.length < pendLen → ∀ p, key.length ≤ p → p < 16 * (key.length / 16) + 16 →
    m.read (laneByteAddr base l p) = 0

end Sys2Proof.Machine
end

