-- ==== Sys2Proof/Certificates/Slice0/Obligations.lean ====
section
/-! DEFINITION. The statements for the provers, one `def Obligations.<Name> : Prop` each (OBLIGATIONS.json). A docstring names
the rule of spec/ that a statement formalises, or says that it is the model's choice and names the log entry. -/
section

open Sys2Proof Sys2Proof.Machine

/-! ### Reset and the other inputs that are no command -/

/-- 10_state.md R30, 70_reset_and_hazards.md R220: after reset the engine is idle. That the reset state meets the invariant of
the machine rests on the model's choices of logs 3, 4 and 5. -/
def Obligations.ResetStateIsIdleAndLegal : Prop := State.reset.Idle ∧ State.reset.Inv

/-- 70_reset_and_hazards.md R220: reset between commands does not read or write memory and sends nothing; it is always
accepted. What the registers hold afterwards is left free (log 6). -/
def Obligations.ResetInputKeepsMemory : Prop :=
  ∀ (s : State) (rest : List Input), s.inputs = .reset :: rest →
    ∃ t, step s = .next t ∧ t.mem = s.mem ∧ t.cfg = s.cfg ∧ t.inputs = rest ∧ t.responses = s.responses

/-- 70_reset_and_hazards.md R221: a command after a reset leaves the same memory and sends the same response as the same
command without the reset, whatever the registers held. -/
def Obligations.CommandAfterResetIsAsAnyOther : Prop :=
  ∀ (s : State) (host : Nat) (p : Packet) (rest : List Input), s.mem.wf = true →
    s.inputs = .reset :: .command host p :: rest →
    ∃ t u v, step s = .next t ∧ step t = .next u ∧ step { s with inputs := .command host p :: rest } = .next v ∧
      u.mem = v.mem ∧ u.cfg = v.cfg ∧ u.inputs = v.inputs ∧ u.responses = v.responses

/-- Log 8 (the model's choice): with no input waiting a step changes nothing. -/
def Obligations.IdleEngineStaysIdle : Prop := ∀ s : State, s.inputs = [] → step s = .next s

/-- Log 9 (the model's choice): a host's store inside the address space changes that byte alone, one outside stops the model
with a fault of its own, and a change of the access predicates changes nothing else. -/
def Obligations.HostsOwnTheMemory : Prop :=
  (∀ (s : State) (a : Nat) (b : Byte) (rest : List Input), s.mem.wf = true → s.inputs = .store a b :: rest → a < 2 ^ s.cfg.aw →
    ∃ t, step s = .next t ∧ t.mem.read a = b ∧ (∀ a', a' ≠ a → t.mem.read a' = s.mem.read a') ∧
      t = { s with inputs := rest, mem := t.mem }) ∧
  (∀ (s : State) (a : Nat) (b : Byte) (rest : List Input), s.inputs = .store a b :: rest → 2 ^ s.cfg.aw ≤ a →
    step s = .fault (.hostStoreOutsideMemory a)) ∧
  ∀ (s : State) (nr nw : List Region) (rest : List Input), s.inputs = .setAccess nr nw :: rest →
    step s = .next { s with inputs := rest, cfg := { s.cfg with noRead := nr, noWrite := nw } }

/-! ### Packets and the decoder -/

/-- 30_encoding.md R60: every field of a decoded command is the field of the packet at the bits of the table, and the reserved
bits of the packet are zero. -/
def Obligations.PacketFieldsAreAtTheirBits : Prop :=
  ∀ (p : Packet) (i : Instr), decode p = .ok i →
    i.op = p.extractLsb' 0 4 ∧ i.fields.r = p.extractLsb' 4 6 ∧ p.extractLsb' 10 22 = 0 ∧
      i.fields.seed = p.extractLsb' 32 32 ∧ i.fields.len = p.extractLsb' 64 32 ∧ i.fields.pendLen = p.extractLsb' 96 32 ∧
      i.fields.a = p.extractLsb' 128 64 ∧ i.fields.b = p.extractLsb' 192 64 ∧ i.fields.out = p.extractLsb' 256 64

/-- 30_encoding.md R61: a row of the opcode table selects the command when `(CMD & mask) == match`, and nothing but the command
word selects it; every mask includes the reserved bits 31:10 and, but for ROTL32 and ROTL64, the field `R`, and the rows have
zeros there. -/
def Obligations.CommandWordAloneSelects : Prop :=
  ∀ w : OpcodeRow, w ∈ opcodeTable →
    (∀ p : Packet, p.extractLsb' 0 32 &&& w.mask = w.pattern ↔ decode p = .ok (w.build p.fields)) ∧
    w.mask.extractLsb' 10 22 = BitVec.allOnes 22 ∧ w.pattern.extractLsb' 10 22 = 0 ∧
    (w.pattern ≠ 0x1 → w.pattern ≠ 0x2 → w.mask.extractLsb' 4 6 = BitVec.allOnes 6 ∧ w.pattern.extractLsb' 4 6 = 0)

/-- 30_encoding.md R66: every packet is exactly one of the eight commands, selected by exactly one row, or illegal. -/
def Obligations.EveryPacketIsOneCommandOrIllegal : Prop :=
  ∀ p : Packet,
    ((∃ w ∈ opcodeTable, decode p = .ok (w.build p.fields) ∧
        ∀ w' ∈ opcodeTable, p.cmd &&& w'.mask = w'.pattern → w'.pattern = w.pattern) ∨
      ((∀ w ∈ opcodeTable, p.cmd &&& w.mask ≠ w.pattern) ∧ ∃ e, decode p = .error e)) ∧
    ¬((∃ i, decode p = .ok i) ∧ ∃ e, decode p = .error e)

/-- 30_encoding.md R65: which command words are illegal, and that a packet with one fails with `ERR_ILLEGAL`, whatever the
memory holds, and writes nothing. -/
def Obligations.IllegalPacketsFail : Prop :=
  ∀ p : Packet,
    ((∃ e, decode p = .error e) ↔
      p.op = 0x0 ∨ 0x9 ≤ p.op ∨ p.cmd.extractLsb' 10 22 ≠ 0 ∨
        (0x3 ≤ p.op ∧ p.op ≤ 0x8 ∧ p.fields.r ≠ 0) ∨ (p.op = 0x1 ∧ 32 ≤ p.fields.r.toNat)) ∧
    ((∃ e, decode p = .error e) → ∀ s : State, ∃ t, runPacket p s = .next t ∧ Failed .errIllegal s t)

/-- 30_encoding.md R60 to R64: decoding the packet of a well-formed command gives the command back, with every field. -/
def Obligations.DecodeOfEncode : Prop := ∀ i : Instr, i.wellFormed = true → decode (encode i) = .ok i

/-- 30_encoding.md R60 to R65: a packet that decodes is the packet of the command it decodes to, and that command is
well-formed: no bit of a legal packet is dropped. -/
def Obligations.EncodeOfDecode : Prop :=
  ∀ (p : Packet) (i : Instr), decode p = .ok i → encode i = p ∧ i.wellFormed = true

/-- 30_encoding.md R70: the two packets worked out there, bit for bit. -/
def Obligations.EncodingExamples : Prop :=
  decode 0x000000000000200000000000000000000000000000001000000000000000000d000004d200000005 =
      .ok (.hashX86_32 { seed := 1234, len := 13, a := 0x1000, out := 0x2000 }) ∧
    encode (.hashX86_32 { seed := 1234, len := 13, a := 0x1000, out := 0x2000 }) =
      0x000000000000200000000000000000000000000000001000000000000000000d000004d200000005 ∧
    decode 0x00000000000000000000000000000000000000008000000100000000000000000000000000000041 =
      .ok (.rotl32 { a := 0x80000001, r := 4 }) ∧
    encode (.rotl32 { a := 0x80000001, r := 4 }) =
      0x00000000000000000000000000000000000000008000000100000000000000000000000000000041

/-- 30_encoding.md R62: the fields a command does not use change neither the response nor memory. -/
def Obligations.UnusedFieldsAreIgnored : Prop :=
  ∀ (i j : Instr) (s : State), s.mem.wf = true → SameUsed i j →
    ∃ t u, exec i s = .next t ∧ exec j s = .next u ∧ t.status = u.status ∧ t.res = u.res ∧ t.mem = u.mem

/-! ### What one step does with a command -/

/-- Log 1, 60_exceptions.md R190, R202: a step that takes the packet of a decoded command runs exactly that command's meaning,
from the state with the input taken, and then sends its response and makes the registers unspecified (log 6). -/
def Obligations.StepRunsTheDecodedCommand : Prop :=
  ∀ (s : State) (host : Nat) (p : Packet) (rest : List Input) (i : Instr), s.inputs = .command host p :: rest →
    decode p = .ok i →
    step s = carryOn (exec i { s with inputs := rest }) (·.deliver host) ∧
    ∀ t, exec i { s with inputs := rest } = .next t → ∃ u, step s = .next u ∧ u.mem = t.mem ∧ u.cfg = t.cfg ∧
      u.inputs = t.inputs ∧ u.responses = t.responses ++ [⟨host, responsePacket t.status t.res⟩] ∧ u.draws = t.draws + 1

/-- 30_encoding.md R63: exactly one response packet per command, its status in bits 7:0, zeros in bits 63:8, `RES` in bits
127:64; `RES` is the result of a leaf command that succeeds, and 0 for a HASH command and for a failed one. -/
def Obligations.ExactlyOneResponsePerCommand : Prop :=
  ∀ (s : State) (host : Nat) (p : Packet) (rest : List Input), s.inputs = .command host p :: rest →
    ∃ t u q, runPacket p { s with inputs := rest } = .next u ∧ step s = .next t ∧ t.inputs = rest ∧
      t.responses = s.responses ++ [⟨host, q⟩] ∧
      q.extractLsb' 0 8 = u.status ∧ (∃ st : Status, u.status = st.code) ∧ q.extractLsb' 8 56 = 0 ∧
      q.extractLsb' 64 64 = u.res ∧ (u.status ≠ Status.ok.code → u.res = 0) ∧
      ∀ i, decode p = .ok i → u.status = Status.ok.code → u.res = resultOf i

/-- 60_exceptions.md R190, 70_reset_and_hazards.md R231: every command ends in a next state, never in a fault or a refusal,
and no command touches the parameters, the inputs still waiting or the responses already sent. -/
def Obligations.EveryCommandEnds : Prop :=
  ∀ (i : Instr) (s : State), ∃ t, exec i s = .next t ∧ t.cfg = s.cfg ∧ t.inputs = s.inputs ∧ t.responses = s.responses ∧
    t.draws = s.draws

/-- 10_state.md R21: when a packet has run, the latches hold all of its fields; nothing in the command has changed them. That an
illegal packet is latched too is the model's reading of R21 (log 14, DEDUCED). -/
def Obligations.LatchesHoldThePacket : Prop :=
  ∀ (p : Packet) (s : State), ∃ t, runPacket p s = .next t ∧ t.latch = ⟨p.op, p.fields⟩

/-! ### Checks and failures -/

/-- 60_exceptions.md R193: the six steps in their order; the first that fails decides the status. -/
def Obligations.FirstFailingCheckDecides : Prop :=
  ∀ (p : Packet) (s : State), ∃ t, runPacket p s = .next t ∧
    ((∀ w ∈ opcodeTable, p.cmd &&& w.mask ≠ w.pattern) → t.status = Status.errIllegal.code) ∧
    ∀ i, decode p = .ok i →
      (Leaf i → t.status = Status.ok.code) ∧
      (¬Leaf i →
        (¬LengthsLegal i → t.status = Status.errLen.code) ∧
        (LengthsLegal i →
          (∀ g ∈ readRegions i, g.size ≤ 2 ^ 34) ∧
          (¬RegionsFit s.cfg (readRegions i) (writeRegion i) → t.status = Status.errAddr.code) ∧
          (RegionsFit s.cfg (readRegions i) (writeRegion i) →
            (¬AllReadable s.cfg (readRegions i) → t.status = Status.errRead.code) ∧
            (AllReadable s.cfg (readRegions i) →
              (¬AllWritable s.cfg (writeRegion i) → t.status = Status.errWrite.code) ∧
              (AllWritable s.cfg (writeRegion i) → t.status = Status.ok.code)))))

/-- 60_exceptions.md R194: a failed command has written nothing, and what it failed with did not depend on any byte of
memory. -/
def Obligations.ChecksComeBeforeEffects : Prop :=
  ∀ (p : Packet) (s t : State), runPacket p s = .next t → t.status ≠ Status.ok.code →
    t.mem = s.mem ∧ t.cfg = s.cfg ∧ t.inputs = s.inputs ∧ t.responses = s.responses ∧
    ∀ m : Memory, ∃ u, runPacket p { s with mem := m } = .next u ∧ u.status = t.status ∧ u.mem = m

/-- 60_exceptions.md R195: a failed command answers its code with `RES` 0, writes nothing, and the next command leaves the same
memory and gets the same response as if the failed one had never been sent. -/
def Obligations.FailedCommandLeavesNoTrace : Prop :=
  ∀ (s t : State) (host : Nat) (p : Packet) (rest : List Input), s.mem.wf = true → s.inputs = .command host p :: rest →
    runPacket p { s with inputs := rest } = .next t → t.status ≠ Status.ok.code →
    ∃ u, step s = .next u ∧ u.mem = s.mem ∧ u.cfg = s.cfg ∧ u.inputs = rest ∧
      u.responses = s.responses ++ [⟨host, responsePacket t.status 0⟩] ∧
      ∀ (host' : Nat) (p' : Packet) (rest' : List Input), rest = .command host' p' :: rest' →
        ∃ v w q, step u = .next v ∧ step { s with inputs := rest } = .next w ∧ v.mem = w.mem ∧ v.cfg = w.cfg ∧
          v.inputs = w.inputs ∧ w.responses = s.responses ++ [⟨host', q⟩] ∧ v.responses = u.responses ++ [⟨host', q⟩]

/-! ### The bit-rotation unit -/

/-- 40_rotate.md R80: bit `i` of `x` becomes bit `(i + r) mod w` of the rotation, which is the two shifts joined. -/
def Obligations.RotationMovesEachBit : Prop :=
  ∀ (w : Nat) (x : BitVec w) (r : Fin w), rotl x r = (x <<< r.val) ||| (x >>> (w - r.val)) ∧
    ∀ i, i < w → (rotl x r).getLsbD ((i + r.val) % w) = x.getLsbD i

/-- 40_rotate.md R85: the laws of the rotation. -/
def Obligations.RotationLaws : Prop :=
  ∀ (w : Nat) (r s : Fin w),
    (∀ x : BitVec w, rotl (rotl x r) s = rotl x ⟨(r.val + s.val) % w, Nat.mod_lt _ (Nat.zero_lt_of_lt r.isLt)⟩) ∧
    Function.Bijective (fun x : BitVec w => rotl x r) ∧
    (∀ x : BitVec w, rotl (rotl x r) ⟨(w - r.val) % w, Nat.mod_lt _ (Nat.zero_lt_of_lt r.isLt)⟩ = x) ∧
    (∀ x y : BitVec w, rotl (x ^^^ y) r = rotl x r ^^^ rotl y r) ∧
    rotl (0 : BitVec w) r = 0 ∧ rotl (BitVec.allOnes w) r = BitVec.allOnes w ∧
    ∀ x : BitVec w, (List.range w).countP (rotl x r).getLsbD = (List.range w).countP x.getLsbD

/-- 40_rotate.md R81: ROTL32, from a packet whose command word is illegal for it, and from legal operands. That the working
registers keep their values until the response is sent is the model's (log 16). -/
def Obligations.Rotl32Command : Prop :=
  (∀ (p : Packet) (s : State), p.op = 0x1 → p.cmd.extractLsb' 10 22 ≠ 0 ∨ 32 ≤ p.fields.r.toNat →
    ∃ t, runPacket p s = .next t ∧ Failed .errIllegal s t) ∧
  ∀ (f : Fields) (s : State), f.r.toNat < 32 →
    exec (.rotl32 f) s = .next { s with
      latch := ⟨0x1, f⟩
      status := 0
      res := ((f.a.setWidth 32 : Word32).rotateLeft f.r.toNat).setWidth 64 }

/-- 40_rotate.md R82: ROTL64; every amount is legal. That the working registers keep their values until the response is sent is
the model's (log 16). -/
def Obligations.Rotl64Command : Prop :=
  (∀ (p : Packet) (s : State), p.op = 0x2 → p.cmd.extractLsb' 10 22 ≠ 0 →
    ∃ t, runPacket p s = .next t ∧ Failed .errIllegal s t) ∧
  ∀ (f : Fields) (s : State),
    exec (.rotl64 f) s = .next { s with latch := ⟨0x2, f⟩, status := 0, res := f.a.rotateLeft f.r.toNat }

/-! ### The finalization mix -/

/-- 41_fmix.md R90 and R91: the five steps of each width, in the order and with the operands of the rules, and the worked
examples. -/
def Obligations.FmixSteps : Prop :=
  (∀ h : Word32, fmix32 h =
    (let h := h ^^^ (h >>> 16)
     let h := h * 0x85ebca6b
     let h := h ^^^ (h >>> 13)
     let h := h * 0xc2b2ae35
     h ^^^ (h >>> 16))) ∧ fmix32 1 = 0x514e28b7 ∧
  (∀ k : Word64, fmix64 k =
    (let k := k ^^^ (k >>> 33)
     let k := k * 0xff51afd7ed558ccd
     let k := k ^^^ (k >>> 33)
     let k := k * 0xc4ceb9fe1a85ec53
     k ^^^ (k >>> 33))) ∧ fmix64 1 = 0xb456bcfc34c2cb2c

/-- 41_fmix.md R94 (a) and (b): both functions are bijections with 0 as a fixed point. -/
def Obligations.FmixIsBijective : Prop :=
  Function.Bijective fmix32 ∧ Function.Bijective fmix64 ∧ fmix32 0 = 0 ∧ fmix64 0 = 0

/-- 41_fmix.md R92: FMIX32. That the working registers keep their values until the response is sent is the model's (log 16). -/
def Obligations.Fmix32Command : Prop :=
  (∀ (p : Packet) (s : State), p.op = 0x3 → p.cmd.extractLsb' 4 28 ≠ 0 →
    ∃ t, runPacket p s = .next t ∧ Failed .errIllegal s t) ∧
  ∀ (f : Fields) (s : State), f.r = 0 →
    exec (.fmix32 f) s = .next { s with latch := ⟨0x3, f⟩, status := 0, res := (fmix32 (f.a.setWidth 32)).setWidth 64 }

/-- 41_fmix.md R93: FMIX64. That the working registers keep their values until the response is sent is the model's (log 16). -/
def Obligations.Fmix64Command : Prop :=
  (∀ (p : Packet) (s : State), p.op = 0x4 → p.cmd.extractLsb' 4 28 ≠ 0 →
    ∃ t, runPacket p s = .next t ∧ Failed .errIllegal s t) ∧
  ∀ (f : Fields) (s : State), f.r = 0 →
    exec (.fmix64 f) s = .next { s with latch := ⟨0x4, f⟩, status := 0, res := fmix64 f.a }

/-! ### The digest engines -/

/-- 42_hash_x86_32.md R102, 43_hash_x86_128.md R122, 44_hash_x64_128.md R142: the key-word mixes with the constants, amounts
and order of the rules; each maps 0 to 0. -/
def Obligations.KeyWordMixes : Prop :=
  (∀ k : Word32, mix32 k = (k * 0xcc9e2d51).rotateLeft 15 * 0x1b873593 ∧
    mix1_128 k = (k * 0x239b961b).rotateLeft 15 * 0xab0e9789 ∧ mix2_128 k = (k * 0xab0e9789).rotateLeft 16 * 0x38b34ae5 ∧
    mix3_128 k = (k * 0x38b34ae5).rotateLeft 17 * 0xa1e38b93 ∧ mix4_128 k = (k * 0xa1e38b93).rotateLeft 18 * 0x239b961b) ∧
  (∀ k : Word64, mix1_64 k = (k * 0x87c37b91114253d5).rotateLeft 31 * 0x4cf5ad432745937f ∧
    mix2_64 k = (k * 0x4cf5ad432745937f).rotateLeft 33 * 0x87c37b91114253d5) ∧
  mix32 0 = 0 ∧ mix1_128 0 = 0 ∧ mix2_128 0 = 0 ∧ mix3_128 0 = 0 ∧ mix4_128 0 = 0 ∧ mix1_64 0 = 0 ∧ mix2_64 0 = 0

/-- 42_hash_x86_32.md R107: HASH_X86_32 as a whole. An illegal command word, then the checks in their order, then the digest of
the key as memory held it before the command, at `OUT` and nowhere else. -/
def Obligations.HashX86_32Command : Prop :=
  (∀ (p : Packet) (s : State), p.op = 0x5 → p.cmd.extractLsb' 4 28 ≠ 0 →
    ∃ t, runPacket p s = .next t ∧ Failed .errIllegal s t) ∧
  ∀ (f : Fields) (s : State),
    (∀ st, Verdict (.hashX86_32 f) s.cfg st → st ≠ .ok → ∃ t, exec (.hashX86_32 f) s = .next t ∧ Failed st s t) ∧
    (s.mem.wf = true → Executes (.hashX86_32 f) s.cfg →
      ∃ t, exec (.hashX86_32 f) s = .next t ∧ t.status = Status.ok.code ∧ t.res = 0 ∧
        bytesAt t.mem f.out.toNat 4 = wordBytes 4 (digestX86_32 f.seed (bytesAt s.mem f.a.toNat f.len.toNat)) ∧
        ∀ a, ¬Within ⟨f.out.toNat, 4⟩ a → t.mem.read a = s.mem.read a)

/-- 43_hash_x86_128.md R128: HASH_X86_128 as a whole. -/
def Obligations.HashX86_128Command : Prop :=
  (∀ (p : Packet) (s : State), p.op = 0x6 → p.cmd.extractLsb' 4 28 ≠ 0 →
    ∃ t, runPacket p s = .next t ∧ Failed .errIllegal s t) ∧
  ∀ (f : Fields) (s : State),
    (∀ st, Verdict (.hashX86_128 f) s.cfg st → st ≠ .ok → ∃ t, exec (.hashX86_128 f) s = .next t ∧ Failed st s t) ∧
    (s.mem.wf = true → Executes (.hashX86_128 f) s.cfg →
      ∃ t, exec (.hashX86_128 f) s = .next t ∧ t.status = Status.ok.code ∧ t.res = 0 ∧
        bytesAt t.mem f.out.toNat 16 = quadBytes (digestX86_128 f.seed (bytesAt s.mem f.a.toNat f.len.toNat)) ∧
        ∀ a, ¬Within ⟨f.out.toNat, 16⟩ a → t.mem.read a = s.mem.read a)

/-- 44_hash_x64_128.md R148: HASH_X64_128 as a whole. -/
def Obligations.HashX64_128Command : Prop :=
  (∀ (p : Packet) (s : State), p.op = 0x7 → p.cmd.extractLsb' 4 28 ≠ 0 →
    ∃ t, runPacket p s = .next t ∧ Failed .errIllegal s t) ∧
  ∀ (f : Fields) (s : State),
    (∀ st, Verdict (.hashX64_128 f) s.cfg st → st ≠ .ok → ∃ t, exec (.hashX64_128 f) s = .next t ∧ Failed st s t) ∧
    (s.mem.wf = true → Executes (.hashX64_128 f) s.cfg →
      ∃ t, exec (.hashX64_128 f) s = .next t ∧ t.status = Status.ok.code ∧ t.res = 0 ∧
        bytesAt t.mem f.out.toNat 16 = pairBytes (digestX64_128 f.seed (bytesAt s.mem f.a.toNat f.len.toNat)) ∧
        ∀ a, ¬Within ⟨f.out.toNat, 16⟩ a → t.mem.read a = s.mem.read a)

/-- 45_hash_x64_128_x16.md R171: HASH_X64_128_X16 as a whole: sixteen digests in the order of the keys, each of its lane's words
as the rules R164 to R169 determine it, whether or not the host has kept its contract. -/
def Obligations.HashX64_128_x16Command : Prop :=
  (∀ (p : Packet) (s : State), p.op = 0x8 → p.cmd.extractLsb' 4 28 ≠ 0 →
    ∃ t, runPacket p s = .next t ∧ Failed .errIllegal s t) ∧
  ∀ (f : Fields) (s : State),
    (∀ st, Verdict (.hashX64_128_x16 f) s.cfg st → st ≠ .ok → ∃ t, exec (.hashX64_128_x16 f) s = .next t ∧ Failed st s t) ∧
    (s.mem.wf = true → Executes (.hashX64_128_x16 f) s.cfg →
      ∃ t, exec (.hashX64_128_x16 f) s = .next t ∧ t.status = Status.ok.code ∧ t.res = 0 ∧
        (∀ n, n < 16 → bytesAt t.mem (f.out.toNat + 16 * n) 16 = pairBytes (batchDigest s.mem f n)) ∧
        ∀ a, ¬Within ⟨f.out.toNat, 256⟩ a → t.mem.read a = s.mem.read a)

/-- 44_hash_x64_128.md R144 and R146: the block step and the finalization of the x64_128 unit as the rules write them, one
assignment after another. -/
def Obligations.X64BlockStepAndFinalization : Prop :=
  (∀ h1 h2 k1 k2 : Word64, block64 (h1, h2) k1 k2 =
    (let h1 := h1 ^^^ mix1_64 k1
     let h1 := h1.rotateLeft 27
     let h1 := h1 + h2
     let h1 := h1 * 5 + 0x0000000052dce729
     let h2 := h2 ^^^ mix2_64 k2
     let h2 := h2.rotateLeft 31
     let h2 := h2 + h1
     let h2 := h2 * 5 + 0x0000000038495ab5
     (h1, h2))) ∧
  ∀ h1 h2 len : Word64, final64 (h1, h2) len =
    (let h1 := h1 ^^^ len
     let h2 := h2 ^^^ len
     let h1 := h1 + h2
     let h2 := h2 + h1
     let h1 := fmix64 h1
     let h2 := fmix64 h2
     let h1 := h1 + h2
     let h2 := h2 + h1
     (h1, h2))

/-- 42_hash_x86_32.md R108, 43_hash_x86_128.md R129, 44_hash_x64_128.md R149, 45_hash_x64_128_x16.md R172, each (a): with an
empty key nothing is read and the key addresses are ignored: they may be any value, inside memory or not. -/
def Obligations.EmptyKeyReadsNothing : Prop :=
  ∀ (f : Fields) (s : State), s.mem.wf = true → f.r = 0 → f.len = 0 →
    (Fits s.cfg ⟨f.out.toNat, 4⟩ → AllWritable s.cfg ⟨f.out.toNat, 4⟩ →
      ∃ t, exec (.hashX86_32 f) s = .next t ∧ t.status = 0 ∧ bytesAt t.mem f.out.toNat 4 = wordBytes 4 (fmix32 f.seed)) ∧
    (Fits s.cfg ⟨f.out.toNat, 16⟩ → AllWritable s.cfg ⟨f.out.toNat, 16⟩ →
      (∃ t, exec (.hashX86_128 f) s = .next t ∧ t.status = 0 ∧
        bytesAt t.mem f.out.toNat 16 = quadBytes (digestX86_128 f.seed [])) ∧
      ∃ t, exec (.hashX64_128 f) s = .next t ∧ t.status = 0 ∧
        bytesAt t.mem f.out.toNat 16 = pairBytes (digestX64_128 f.seed [])) ∧
    (f.pendLen = 0 → Fits s.cfg ⟨f.out.toNat, 256⟩ → AllWritable s.cfg ⟨f.out.toNat, 256⟩ →
      ∃ t, exec (.hashX64_128_x16 f) s = .next t ∧ t.status = 0 ∧
        ∀ n, n < 16 → bytesAt t.mem (f.out.toNat + 16 * n) 16 = pairBytes (digestX64_128 f.seed []))

/-- 45_hash_x64_128_x16.md R176: on buffers laid out by R170, each of the sixteen digests is the one that HASH_X64_128 writes for
that key with the same seed and length, wherever the key lies. -/
def Obligations.BatchEqualsSixteenScalarDigests : Prop :=
  ∀ (f : Fields) (s : State) (keys : Nat → List Byte), s.mem.wf = true → Executes (.hashX64_128_x16 f) s.cfg →
    (∀ n, n < 16 → (keys n).length = f.len.toNat ∧
      LaidOut s.mem (if n < 8 then f.a.toNat else f.b.toNat) (n % 8) (keys n) f.pendLen.toNat) →
    ∃ t, exec (.hashX64_128_x16 f) s = .next t ∧
      ∀ n, n < 16 → ∀ (g : Fields) (s' t' : State), s'.mem.wf = true → Executes (.hashX64_128 g) s'.cfg →
        g.seed = f.seed → g.len = f.len → bytesAt s'.mem g.a.toNat g.len.toNat = keys n →
        exec (.hashX64_128 g) s' = .next t' →
        bytesAt t.mem (f.out.toNat + 16 * n) 16 = bytesAt t'.mem g.out.toNat 16

/-- 45_hash_x64_128_x16.md R168: a lane's digest depends only on `SEED`, `LEN`, `PEND_LEN > LEN` and that lane's own words: two
batch commands that agree on these, for a lane each, give that lane the same digest, whatever the other lanes hold. -/
def Obligations.LanesAreIndependent : Prop :=
  ∀ (f g : Fields) (s u t v : State) (n k : Nat), s.mem.wf = true → u.mem.wf = true → n < 16 → k < 16 →
    f.seed = g.seed → f.len = g.len → (f.len < f.pendLen ↔ g.len < g.pendLen) →
    (∀ j, j < nslots f → ∀ b, b < 8 →
      s.mem.read ((if n < 8 then f.a.toNat else f.b.toNat) + 64 * j + 8 * (n % 8) + b)
        = u.mem.read ((if k < 8 then g.a.toNat else g.b.toNat) + 64 * j + 8 * (k % 8) + b)) →
    Executes (.hashX64_128_x16 f) s.cfg → Executes (.hashX64_128_x16 g) u.cfg →
    exec (.hashX64_128_x16 f) s = .next t → exec (.hashX64_128_x16 g) u = .next v →
    bytesAt t.mem (f.out.toNat + 16 * n) 16 = bytesAt v.mem (g.out.toNat + 16 * k) 16

/-- 45_hash_x64_128_x16.md R161, R172 (d), (e): `PEND_LEN` is used for nothing but the comparison with `LEN`: two commands that
differ only in `PEND_LEN`, both legal lengths on the same side of `LEN`, do the same. -/
def Obligations.PendingLengthIsOnlyCompared : Prop :=
  ∀ (f : Fields) (n : Word32) (s : State), s.mem.wf = true → f.pendLen.toNat < 2 ^ 31 → n.toNat < 2 ^ 31 →
    (f.len < f.pendLen ↔ f.len < n) →
    ∃ t u, exec (.hashX64_128_x16 f) s = .next t ∧ exec (.hashX64_128_x16 { f with pendLen := n }) s = .next u ∧
      t.status = u.status ∧ t.res = u.res ∧ t.mem = u.mem

/-- 45_hash_x64_128_x16.md R172 (f): with `A = B` the digests of keys `n` and `n + 8` are equal. -/
def Obligations.SameBufferTwiceGivesEqualDigests : Prop :=
  ∀ (f : Fields) (s : State), s.mem.wf = true → Executes (.hashX64_128_x16 f) s.cfg → f.a = f.b →
    ∃ t, exec (.hashX64_128_x16 f) s = .next t ∧
      ∀ n, n < 8 → bytesAt t.mem (f.out.toNat + 16 * n) 16 = bytesAt t.mem (f.out.toNat + 16 * (n + 8)) 16

/-! ### Frames -/

/-- The frame of the leaf commands, in every form, legal or not: only the latches and the response registers change. That memory
is untouched is the rules' (40_rotate.md R81, R82, 41_fmix.md R92, R93: "Memory: none read, none written"; 60_exceptions.md
R194). That the working and vector registers keep their values until the response is sent, where 10_state.md R30 and
60_exceptions.md R195 leave them unspecified, is the model's choice (log 16, DEDUCED). -/
def Obligations.LeafCommandsChangeOnlyTheResponse : Prop :=
  ∀ (i : Instr) (s t : State), Leaf i → exec i s = .next t →
    t = { s with latch := ⟨i.op, i.fields⟩, status := t.status, res := t.res }

/-- The frame of the HASH commands, in every form: beside the latches, the response registers and the unit's own registers of
10_state.md R22 and R23, only the bytes of the write region change. That the registers of the other units keep their values
until the response is sent is the model's (log 16). -/
def Obligations.HashCommandsChangeOnlyTheirOwn : Prop :=
  (∀ (f : Fields) (s t : State), exec (.hashX86_32 f) s = .next t →
    t = { s with latch := ⟨0x5, f⟩, x86_32 := t.x86_32, blockIx := t.blockIx, mem := t.mem, status := t.status, res := 0 } ∧
    ∀ a, ¬Within ⟨f.out.toNat, 4⟩ a → t.mem.read a = s.mem.read a) ∧
  (∀ (f : Fields) (s t : State), exec (.hashX86_128 f) s = .next t →
    t = { s with latch := ⟨0x6, f⟩, x86_128 := t.x86_128, blockIx := t.blockIx, mem := t.mem, status := t.status, res := 0 } ∧
    ∀ a, ¬Within ⟨f.out.toNat, 16⟩ a → t.mem.read a = s.mem.read a) ∧
  (∀ (f : Fields) (s t : State), exec (.hashX64_128 f) s = .next t →
    t = { s with latch := ⟨0x7, f⟩, x64_128 := t.x64_128, blockIx := t.blockIx, mem := t.mem, status := t.status, res := 0 } ∧
    ∀ a, ¬Within ⟨f.out.toNat, 16⟩ a → t.mem.read a = s.mem.read a) ∧
  ∀ (f : Fields) (s t : State), exec (.hashX64_128_x16 f) s = .next t →
    t = { s with latch := ⟨0x8, f⟩, group0 := t.group0, group1 := t.group1, blockIx := t.blockIx, mem := t.mem,
                 status := t.status, res := 0 } ∧
    ∀ a, ¬Within ⟨f.out.toNat, 256⟩ a → t.mem.read a = s.mem.read a

/-! ### Memory -/

/-- 20_memory.md R40: every multi-byte read is little-endian. -/
def Obligations.ReadsAreLittleEndian : Prop :=
  ∀ (m : Memory) (a : Nat),
    (m.read32 a).toNat = (m.read a).toNat + 2 ^ 8 * (m.read (a + 1)).toNat + 2 ^ 16 * (m.read (a + 2)).toNat
      + 2 ^ 24 * (m.read (a + 3)).toNat ∧
    (m.read64 a).toNat = (m.read a).toNat + 2 ^ 8 * (m.read (a + 1)).toNat + 2 ^ 16 * (m.read (a + 2)).toNat
      + 2 ^ 24 * (m.read (a + 3)).toNat + 2 ^ 32 * (m.read (a + 4)).toNat + 2 ^ 40 * (m.read (a + 5)).toNat
      + 2 ^ 48 * (m.read (a + 6)).toNat + 2 ^ 56 * (m.read (a + 7)).toNat

/-- 20_memory.md R41: every digest word is written little-endian, and two 64-bit words written one behind the other are the four
32-bit words of their halves. -/
def Obligations.WritesAreLittleEndian : Prop :=
  ∀ (m : Memory) (a : Nat), m.wf = true →
    (∀ (h : Word32) (x : Nat), (m.write32 a h).read x =
      if a ≤ x ∧ x < a + 4 then h.extractLsb' (8 * (x - a)) 8 else m.read x) ∧
    (∀ (h : Word64) (x : Nat), (m.write64 a h).read x =
      if a ≤ x ∧ x < a + 8 then h.extractLsb' (8 * (x - a)) 8 else m.read x) ∧
    ∀ h1 h2 : Word64, let m' := (m.write64 a h1).write64 (a + 8) h2
      m'.read32 a = h1.extractLsb' 0 32 ∧ m'.read32 (a + 4) = h1.extractLsb' 32 32 ∧
        m'.read32 (a + 8) = h2.extractLsb' 0 32 ∧ m'.read32 (a + 12) = h2.extractLsb' 32 32

/-! ### Whole-machine rules -/

/-- 10_state.md R28 and R31: two commands with equal packets, on memories that agree on the regions the command reads, give
equal responses and equal writes, whatever the registers held and whatever the rest of memory is. -/
def Obligations.EqualPacketsGiveEqualResponses : Prop :=
  ∀ (p : Packet) (s u : State), s.mem.wf = true → u.mem.wf = true → s.cfg = u.cfg → AgreeOn (packetReads p) s.mem u.mem →
    ∃ t v, runPacket p s = .next t ∧ runPacket p u = .next v ∧ t.status = v.status ∧ t.res = v.res ∧
      (t.status = Status.ok.code → ∀ a, Within (packetWrites p) a → t.mem.read a = v.mem.read a) ∧
      (t.status = Status.ok.code → ∀ a, ¬Within (packetWrites p) a → t.mem.read a = s.mem.read a ∧ v.mem.read a = u.mem.read a) ∧
      (t.status ≠ Status.ok.code → t.mem = s.mem ∧ v.mem = u.mem)

/-- 60_exceptions.md R202, 70_reset_and_hazards.md R227: commands commute when neither writes into the other's regions: in
either order memory ends the same and each command gets the same response. -/
def Obligations.CommandsOnDisjointRegionsCommute : Prop :=
  ∀ (p q : Packet) (s : State), s.mem.wf = true →
    (∀ a, Within (packetWrites p) a → ¬Within (packetWrites q) a ∧ ∀ g ∈ packetReads q, ¬Within g a) →
    (∀ a, Within (packetWrites q) a → ∀ g ∈ packetReads p, ¬Within g a) →
    ∃ t1 t2 u1 u2, runPacket p s = .next t1 ∧ runPacket q t1 = .next t2 ∧ runPacket q s = .next u1 ∧ runPacket p u1 = .next u2 ∧
      t2.mem = u2.mem ∧ t1.status = u2.status ∧ t1.res = u2.res ∧ t2.status = u1.status ∧ t2.res = u1.res

/-- 70_reset_and_hazards.md R222: reset inside a command. No response is sent; each byte of the write region holds its old value
or the value the command would have written; every other byte is unchanged. -/
def Obligations.CommandCutByReset : Prop :=
  ∀ (s : State) (host : Nat) (p : Packet) (rest : List Input), s.mem.wf = true → s.inputs = .commandCut host p :: rest →
    ∃ t u, runPacket p { s with inputs := rest } = .next u ∧ step s = .next t ∧ t.responses = s.responses ∧ t.inputs = rest ∧
      t.cfg = s.cfg ∧
      ∀ a, (Within (packetWrites p) a → t.mem.read a = s.mem.read a ∨ t.mem.read a = u.mem.read a) ∧
        (¬Within (packetWrites p) a → t.mem.read a = s.mem.read a)

/-- 70_reset_and_hazards.md R224: another agent stores into memory during a command. The command still completes with the
response it would have had; outside the write region memory holds what the stores left; and where no store fell into the
command's regions, or the command failed, memory is what the command and then the stores leave. Of the bytes of the write
region otherwise nothing is said (log 11). -/
def Obligations.CommandRacedByAnotherAgent : Prop :=
  ∀ (s : State) (host : Nat) (p : Packet) (cells : List Host.Cell) (rest : List Input), s.mem.wf = true →
    s.inputs = .commandRaced host p cells :: rest → (∀ c ∈ cells, c.1 < 2 ^ s.cfg.aw) →
    ∃ t u, runPacket p { s with inputs := rest } = .next u ∧ step s = .next t ∧ t.inputs = rest ∧ t.cfg = s.cfg ∧
      t.responses = s.responses ++ [⟨host, responsePacket u.status u.res⟩] ∧
      (∀ a, ¬Within (packetWrites p) a → t.mem.read a = (s.mem.store cells).read a) ∧
      ((∀ c ∈ cells, inPacketRegions p c.1 = false) ∨ u.status ≠ Status.ok.code → t.mem = u.mem.store cells)

/-- The invariant of the machine is kept by every step: the parameters `AW` and `NENG` stay legal, memory stays in canonical form and inside
the `2^AW` bytes that exist (10_state.md R25), and every response ever sent is of the form of 30_encoding.md R63 with a status
of 60_exceptions.md R191. -/
def Obligations.EveryStepKeepsTheInvariant : Prop := ∀ s t : State, s.Inv → step s = .next t → t.Inv

/-- Log 25 (the model's choice: 70_reset_and_hazards.md R222 and R224 do not say how they combine): another agent stores into
memory during a command and reset then cuts the command short. No response is sent; outside the write region memory holds what
the stores left; where no store fell into the command's regions each byte of the write region holds its old value or the value
the command would have written; and a command that would have failed leaves memory to the stores alone. -/
def Obligations.CommandRacedAndCutByReset : Prop :=
  ∀ (s : State) (host : Nat) (p : Packet) (cells : List Host.Cell) (rest : List Input), s.mem.wf = true →
    s.inputs = .commandRacedCut host p cells :: rest → (∀ c ∈ cells, c.1 < 2 ^ s.cfg.aw) →
    ∃ t u, runPacket p { s with inputs := rest } = .next u ∧ step s = .next t ∧ t.responses = s.responses ∧ t.inputs = rest ∧
      t.cfg = s.cfg ∧
      (∀ a, ¬Within (packetWrites p) a → t.mem.read a = (s.mem.store cells).read a) ∧
      ((∀ c ∈ cells, inPacketRegions p c.1 = false) →
        ∀ a, Within (packetWrites p) a → t.mem.read a = s.mem.read a ∨ t.mem.read a = u.mem.read a) ∧
      (u.status ≠ Status.ok.code → t.mem = s.mem.store cells)

end
end

