-- ==== Sys2Proof/Laws/Access.lean ====
section
/-! SUPPORT. The checks of a command, computed on intervals, are the checks of 60_exceptions.md R193, said byte by byte; and
the verdict of `checkCommand` in each case. -/
namespace Sys2Proof

theorem Region.contains_iff {g : Region} {a : Nat} : g.contains a = true ↔ Machine.Within g a := by
  simp [Region.contains, Machine.Within]

/-- Two regions with no common byte are disjoint as intervals, and the other way round. -/
theorem Region.disjoint_iff {g k : Region} :
    g.disjoint k = true ↔ ∀ a, Machine.Within g a → ¬ Machine.Within k a := by
  simp only [Region.disjoint, Bool.or_eq_true, beq_iff_eq, decide_eq_true_eq, Machine.Within]
  constructor
  · intro h a ha hk
    omega
  · intro h
    by_contra hn
    have h1 := h (max g.base k.base) (by omega)
    omega

theorem Config.fits_iff {c : Config} {g : Region} : c.fits g = true ↔ Machine.Fits c g := by
  simp only [Config.fits, Bool.and_eq_true, decide_eq_true_eq]
  exact Iff.rfl

theorem Config.allReadable_iff {c : Config} {g : Region} :
    c.allReadable g = true ↔ ∀ a, Machine.Within g a → c.readable a = true := by
  simp only [Config.allReadable, Config.readable, List.all_eq_true, Region.disjoint_iff, Bool.not_eq_true',
    ← Bool.not_eq_true, Region.contains_iff]
  exact ⟨fun h a ha k hk => h k hk a ha, fun h k hk a ha => h a ha k hk⟩

theorem Config.allWritable_iff {c : Config} {g : Region} :
    c.allWritable g = true ↔ ∀ a, Machine.Within g a → c.writable a = true := by
  simp only [Config.allWritable, Config.writable, List.all_eq_true, Region.disjoint_iff, Bool.not_eq_true',
    ← Bool.not_eq_true, Region.contains_iff]
  exact ⟨fun h a ha k hk => h k hk a ha, fun h k hk a ha => h a ha k hk⟩

end Sys2Proof

namespace Sys2Proof.Machine

/-- Step 3 as `checkCommand` computes it. -/
theorem regionsFit_iff {c : Config} {reads : List Region} {write : Region} :
    ((!(reads.all fun g => g.size == 0 || c.fits g) || !c.fits write) = false) ↔ RegionsFit c reads write := by
  simp only [Bool.or_eq_false_iff, Bool.not_eq_false', List.all_eq_true, Bool.or_eq_true, beq_iff_eq, Config.fits_iff,
    RegionsFit]
  refine and_congr_left fun _ => forall₂_congr fun g _ => ?_
  constructor
  · rintro (h | h) hp
    · omega
    · exact h
  · intro h
    rcases Nat.eq_zero_or_pos g.size with h0 | h0
    · exact .inl h0
    · exact .inr (h h0)

/-- Step 4 as `checkCommand` computes it. -/
theorem allReadable_iff {c : Config} {reads : List Region} :
    (reads.all c.allReadable = true) ↔ AllReadable c reads := by
  simp only [List.all_eq_true, Config.allReadable_iff, AllReadable]

/-- Step 5 as `checkCommand` computes it. -/
theorem allWritable_iff {c : Config} {write : Region} : (c.allWritable write = true) ↔ AllWritable c write :=
  Config.allWritable_iff

/-- The verdict of the checks with each check said in words (60_exceptions.md R193): the first that fails decides. -/
theorem checkCommand_eq (c : Config) (illegal long : Bool) (reads : List Region) (write : Region)
    [Decidable (RegionsFit c reads write)] [Decidable (AllReadable c reads)] [Decidable (AllWritable c write)] :
    checkCommand c illegal long reads write =
      if illegal then some .errIllegal else if long then some .errLen
      else if ¬ RegionsFit c reads write then some .errAddr
      else if ¬ AllReadable c reads then some .errRead
      else if ¬ AllWritable c write then some .errWrite else none := by
  have h3 := regionsFit_iff (c := c) (reads := reads) (write := write)
  have h4 := allReadable_iff (c := c) (reads := reads)
  have h5 := allWritable_iff (c := c) (write := write)
  unfold checkCommand
  generalize (!(reads.all fun g => g.size == 0 || c.fits g) || !c.fits write) = b3 at h3 ⊢
  generalize reads.all c.allReadable = b4 at h4 ⊢
  generalize c.allWritable write = b5 at h5 ⊢
  cases b3 <;> cases b4 <;> cases b5 <;> simp [← h3, ← h4, ← h5]

/-- The command executes exactly when every check passes. -/
theorem checkCommand_eq_none {c : Config} {illegal long : Bool} {reads : List Region} {write : Region} :
    checkCommand c illegal long reads write = none ↔
      illegal = false ∧ long = false ∧ RegionsFit c reads write ∧ AllReadable c reads ∧ AllWritable c write := by
  classical
  rw [checkCommand_eq]
  cases illegal <;> cases long <;> by_cases h3 : RegionsFit c reads write <;> by_cases h4 : AllReadable c reads <;>
    by_cases h5 : AllWritable c write <;> simp [h3, h4, h5]

/-- A status is never reserved: its code is at most 5 (60_exceptions.md R191). -/
theorem Status.code_le (st : Status) : st.code.toNat ≤ 5 := by cases st <;> decide

theorem Status.code_eq_zero {st : Status} : st.code = 0 ↔ st = .ok := by cases st <;> decide

/-- A verdict is a failure. -/
theorem checkCommand_ne_ok {c : Config} {illegal long : Bool} {reads : List Region} {write : Region} {st : Status}
    (h : checkCommand c illegal long reads write = some st) : st ≠ .ok := by
  unfold checkCommand at h
  rintro rfl
  split_ifs at h <;> simp at h

end Sys2Proof.Machine
end

