-- ==== Sys2Proof/Laws/BlockIndex.lean ====
section
/-! SUPPORT. The block index `I` counts the blocks of the main loop without wrapping. -/
namespace Sys2Proof.Machine

/-- The block index counts without wrapping while it stays below `2^32`. -/
theorem toNat_add_one {x : Word32} {n : Nat} (h : x.toNat + (n + 1) < 2 ^ 32) : (x + 1).toNat = x.toNat + 1 := by
  rw [BitVec.toNat_add, show (1 : Word32).toNat = 1 from rfl]
  omega

theorem add_one_add_ofNat (x : Word32) (n : Nat) : x + 1 + BitVec.ofNat 32 n = x + BitVec.ofNat 32 (n + 1) := by
  rw [BitVec.add_assoc, Nat.add_comm n 1, BitVec.ofNat_add]; rfl

/-- The number of blocks is small enough for the block index to count them from 0. -/
theorem nblocks_lt (f : Fields) {b : Nat} : (0 : Word32).toNat + nblocks f b < 2 ^ 32 := by
  have h1 := f.len.isLt
  have h2 := Nat.div_le_self f.len.toNat b
  rw [show (0 : Word32).toNat = 0 from rfl, nblocks]
  omega

end Sys2Proof.Machine
end

