-- ==== Sys2Proof/Laws/Decode.lean ====
section
/-! SUPPORT. The fields of a packet and of an encoded command, which rows of the opcode table select a command word, and the
decoder in one equation. -/
namespace Sys2Proof

/-! ### Fields side by side -/

theorem append_inj {n m : Nat} {a a' : BitVec n} {b b' : BitVec m} : a ++ b = a' ++ b' ↔ a = a' ∧ b = b' := by
  refine ⟨fun h => ?_, fun h => by rw [h.1, h.2]⟩
  have h1 := congrArg (BitVec.extractLsb' m n) h
  have h2 := congrArg (BitVec.extractLsb' 0 m) h
  rw [BitVec.extractLsb'_append_eq_left, BitVec.extractLsb'_append_eq_left] at h1
  rw [BitVec.extractLsb'_append_eq_right, BitVec.extractLsb'_append_eq_right] at h2
  exact ⟨h1, h2⟩

/-- Two neighbouring fields of a word are one field. -/
theorem extractLsb'_append_extractLsb' {w : Nat} (p : BitVec w) (s n m : Nat) :
    p.extractLsb' (s + m) n ++ p.extractLsb' s m = p.extractLsb' s (n + m) := by
  ext i hi
  simp only [BitVec.getElem_append, BitVec.getElem_extractLsb']
  split
  · rfl
  · congr 1; omega

/-- The command word is its three fields (30_encoding.md R60, R61). -/
theorem Packet.cmd_eq (p : Packet) : p.cmd = p.reserved ++ p.fields.r ++ p.op := by
  have h1 := extractLsb'_append_extractLsb' p 4 22 6
  have h2 := extractLsb'_append_extractLsb' p 0 28 4
  rw [← h1] at h2
  exact h2.symm

/-- A packet is its fields (30_encoding.md R60). -/
theorem Packet.eq_append (p : Packet) : p = p.fields.out ++ p.fields.b ++ p.fields.a ++ p.fields.pendLen ++ p.fields.len
    ++ p.fields.seed ++ p.reserved ++ p.fields.r ++ p.op := by
  have h1 := extractLsb'_append_extractLsb' p 192 64 64
  have h2 := extractLsb'_append_extractLsb' p 128 128 64
  have h3 := extractLsb'_append_extractLsb' p 96 192 32
  have h4 := extractLsb'_append_extractLsb' p 64 224 32
  have h5 := extractLsb'_append_extractLsb' p 32 256 32
  have h6 := extractLsb'_append_extractLsb' p 10 288 22
  have h7 := extractLsb'_append_extractLsb' p 4 310 6
  have h8 := extractLsb'_append_extractLsb' p 0 316 4
  rw [← h7, ← h6, ← h5, ← h4, ← h3, ← h2, ← h1] at h8
  have h9 : p.extractLsb' 0 320 = p := BitVec.extractLsb'_eq_self
  exact (h8.trans h9).symm

/-! ### The fields of an encoded command -/

theorem encode_op (i : Instr) : (encode i).op = i.op := BitVec.extractLsb'_append_eq_right

/-- The fields of a packet written field by field are those fields. -/
theorem append_eq_encode {i : Instr} {p : Packet} (h : p = encode i) :
    p.op = i.op ∧ p.reserved = 0 ∧ p.fields = i.fields := by
  have h1 := (Packet.eq_append p).symm.trans h
  unfold encode at h1
  repeat rw [append_inj] at h1
  obtain ⟨⟨⟨⟨⟨⟨⟨⟨e1, e2⟩, e3⟩, e4⟩, e5⟩, e6⟩, e7⟩, e8⟩, e9⟩ := h1
  refine ⟨e9, e7, ?_⟩
  generalize p.fields = f at *
  generalize i.fields = g at *
  cases f; cases g
  simp_all

theorem encode_reserved (i : Instr) : (encode i).reserved = 0 := (append_eq_encode rfl).2.1

theorem encode_fields (i : Instr) : (encode i).fields = i.fields := (append_eq_encode rfl).2.2

/-- A packet with zero reserved bits that carries a command's opcode and fields is the encoding of the command. -/
theorem eq_encode {p : Packet} {i : Instr} (hr : p.reserved = 0) (ho : i.op = p.op) (hf : i.fields = p.fields) :
    p = encode i := by
  rw [encode, ho, hf, ← hr]
  exact p.eq_append

/-! ### The rows of the opcode table -/

/-- A row whose mask covers the opcode, the reserved bits and `m6` of the rotation field selects a command word exactly when
those bits are the opcode and zeros (30_encoding.md R61). -/
theorem selects_eq (p : Packet) (m6 : BitVec 6) (k : BitVec 4) (b : Fields → Instr) {pat mask : BitVec 32}
    (hp : pat = (0 : BitVec 22) ++ (0 : BitVec 6) ++ k) (hm : mask = BitVec.allOnes 22 ++ m6 ++ BitVec.allOnes 4) :
    (OpcodeRow.mk pat mask b).selects p.cmd
      = (decide (p.op = k) && decide (p.fields.r &&& m6 = 0) && decide (p.reserved = 0)) := by
  subst hp hm
  rw [OpcodeRow.selects, Packet.cmd_eq]
  have e : (p.reserved ++ p.fields.r ++ p.op) &&& (BitVec.allOnes 22 ++ m6 ++ BitVec.allOnes 4)
      = p.reserved ++ (p.fields.r &&& m6) ++ p.op := by
    rw [BitVec.and_append, BitVec.and_append, BitVec.and_allOnes, BitVec.and_allOnes]
  have e2 := append_inj (a := p.reserved ++ (p.fields.r &&& m6)) (b := p.op) (a' := (0 : BitVec 22) ++ (0 : BitVec 6)) (b' := k)
  have e3 := append_inj (a := p.reserved) (b := p.fields.r &&& m6) (a' := (0 : BitVec 22)) (b' := (0 : BitVec 6))
  rw [Bool.eq_iff_iff]
  simp only [beq_iff_eq, Bool.and_eq_true, decide_eq_true_eq]
  exact (Iff.of_eq (congrArg (· = (0 : BitVec 22) ++ (0 : BitVec 6) ++ k) e)).trans (e2.trans ((and_congr_left' e3).trans (by tauto)))

/-- The rotation field is below 32 exactly when its highest bit is 0 (30_encoding.md R64). -/
theorem and_32_eq_zero (r : BitVec 6) : r &&& 0x20 = 0 ↔ r.toNat < 32 := by revert r; decide

theorem selects_rotl32 (p : Packet) : (OpcodeRow.mk 0x00000001 0xFFFFFE0F .rotl32).selects p.cmd
    = (decide (p.op = 0x1) && decide (p.fields.r.toNat < 32) && decide (p.reserved = 0)) := by
  have h := selects_eq p 0x20 0x1 .rotl32 (pat := 0x00000001) (mask := 0xFFFFFE0F) rfl rfl
  simpa only [and_32_eq_zero] using h

theorem selects_rotl64 (p : Packet) : (OpcodeRow.mk 0x00000002 0xFFFFFC0F .rotl64).selects p.cmd
    = (decide (p.op = 0x2) && decide (p.reserved = 0)) := by
  have h := selects_eq p 0x00 0x2 .rotl64 (pat := 0x00000002) (mask := 0xFFFFFC0F) rfl rfl
  have h0 : p.fields.r &&& 0x00 = 0 := BitVec.and_zero
  simpa only [h0, decide_true, Bool.and_true] using h

/-- A row whose mask covers the whole rotation field. -/
theorem selects_full (p : Packet) (k : BitVec 4) (b : Fields → Instr) {pat : BitVec 32}
    (hp : pat = (0 : BitVec 22) ++ (0 : BitVec 6) ++ k) : (OpcodeRow.mk pat 0xFFFFFFFF b).selects p.cmd
    = (decide (p.op = k) && decide (p.fields.r = 0) && decide (p.reserved = 0)) := by
  have h := selects_eq p 0x3F k b (mask := 0xFFFFFFFF) hp rfl
  have h3 : p.fields.r &&& 0x3F = p.fields.r := BitVec.and_allOnes
  rwa [h3] at h

/-! ### The decoder -/

/-- What the decoder makes of an opcode and operand fields when the reserved bits are 0. -/
def commandOf (op : BitVec 4) (f : Fields) : Except Illegal Instr :=
  if op = 0x1 then (if f.r.toNat < 32 then .ok (.rotl32 f) else .error .rotationTooLarge)
  else if op = 0x2 then .ok (.rotl64 f)
  else if op = 0x0 ∨ 0x9 ≤ op then .error .reservedOpcode
  else if f.r ≠ 0 then .error .rotationNotZero
  else if op = 0x3 then .ok (.fmix32 f)
  else if op = 0x4 then .ok (.fmix64 f)
  else if op = 0x5 then .ok (.hashX86_32 f)
  else if op = 0x6 then .ok (.hashX86_128 f)
  else if op = 0x7 then .ok (.hashX64_128 f)
  else .ok (.hashX64_128_x16 f)

/-- The decoder in one equation (30_encoding.md R64, R65). -/
theorem decode_eq (p : Packet) : decode p =
    if p.reserved = 0 then commandOf p.op p.fields
    else .error (if p.op = 0x0 ∨ 0x9 ≤ p.op then .reservedOpcode else .reservedBits) := by
  have s3 := selects_full p 0x3 .fmix32 (pat := 0x00000003) rfl
  have s4 := selects_full p 0x4 .fmix64 (pat := 0x00000004) rfl
  have s5 := selects_full p 0x5 .hashX86_32 (pat := 0x00000005) rfl
  have s6 := selects_full p 0x6 .hashX86_128 (pat := 0x00000006) rfl
  have s7 := selects_full p 0x7 .hashX64_128 (pat := 0x00000007) rfl
  have s8 := selects_full p 0x8 .hashX64_128_x16 (pat := 0x00000008) rfl
  rw [decode, opcodeTable]
  simp only [List.find?_cons, List.find?_nil, selects_rotl32, selects_rotl64, s3, s4, s5, s6, s7, s8, Packet.illegal]
  clear s3 s4 s5 s6 s7 s8
  generalize p.op = op
  generalize p.fields = f
  generalize p.reserved = z
  obtain ⟨n, hn, rfl⟩ : ∃ n, n < 16 ∧ op = BitVec.ofNat 4 n := ⟨op.toNat, op.isLt, by simp⟩
  by_cases hz : z = 0#22
  · by_cases h32 : f.r.toNat < 32
    · by_cases hr : f.r = 0#6 <;> interval_cases n <;> simp [commandOf, hz, hr, h32]
    · have hr : ¬f.r = 0#6 := fun h => h32 (by simp [h])
      interval_cases n <;> simp [commandOf, hz, hr, h32]
  · interval_cases n <;> simp [hz]

/-- Which commands the decoder makes: those whose opcode and fields the packet carries and that are well-formed. -/
theorem commandOf_eq_ok {op : BitVec 4} {f : Fields} {i : Instr} :
    commandOf op f = .ok i ↔ i.op = op ∧ i.fields = f ∧ i.wellFormed = true := by
  constructor
  · intro h
    unfold commandOf at h
    obtain ⟨n, hn, rfl⟩ : ∃ n, n < 16 ∧ op = BitVec.ofNat 4 n := ⟨op.toNat, op.isLt, by simp⟩
    split_ifs at h <;> (try cases h) <;>
      simp_all [Instr.op, Instr.fields, Instr.wellFormed, rotationFits32, rotationUnused]
    interval_cases n <;> simp_all
  · rintro ⟨rfl, rfl, h⟩
    cases i <;> simp_all [Instr.wellFormed, commandOf, Instr.op, Instr.fields, rotationFits32, rotationUnused]

/-- When a packet decodes, and to what (30_encoding.md R64, R65). -/
theorem decode_eq_ok {p : Packet} {i : Instr} :
    decode p = .ok i ↔ p.reserved = 0 ∧ i.op = p.op ∧ i.fields = p.fields ∧ i.wellFormed = true := by
  rw [decode_eq, ← commandOf_eq_ok]
  split <;> simp_all

/-- When a row of the opcode table selects a packet's command word, in terms of the command it builds. -/
theorem row_selects {p : Packet} {w : OpcodeRow} (hw : w ∈ opcodeTable) :
    w.selects p.cmd = true ↔ p.reserved = 0 ∧ (w.build p.fields).op = p.op ∧ (w.build p.fields).wellFormed = true := by
  simp only [opcodeTable, List.mem_cons, List.not_mem_nil, or_false] at hw
  rcases hw with rfl | rfl | rfl | rfl | rfl | rfl | rfl | rfl
  · rw [selects_rotl32]
    simp only [Bool.and_eq_true, decide_eq_true_eq, Instr.op, Instr.wellFormed, rotationFits32]
    tauto
  · rw [selects_rotl64]
    simp only [Bool.and_eq_true, decide_eq_true_eq, Instr.op, Instr.wellFormed]
    tauto
  · rw [selects_full p 0x3 .fmix32 (pat := 0x3) rfl]
    simp only [Bool.and_eq_true, decide_eq_true_eq, Instr.op, Instr.wellFormed, rotationUnused]
    tauto
  · rw [selects_full p 0x4 .fmix64 (pat := 0x4) rfl]
    simp only [Bool.and_eq_true, decide_eq_true_eq, Instr.op, Instr.wellFormed, rotationUnused]
    tauto
  · rw [selects_full p 0x5 .hashX86_32 (pat := 0x5) rfl]
    simp only [Bool.and_eq_true, decide_eq_true_eq, Instr.op, Instr.wellFormed, rotationUnused]
    tauto
  · rw [selects_full p 0x6 .hashX86_128 (pat := 0x6) rfl]
    simp only [Bool.and_eq_true, decide_eq_true_eq, Instr.op, Instr.wellFormed, rotationUnused]
    tauto
  · rw [selects_full p 0x7 .hashX64_128 (pat := 0x7) rfl]
    simp only [Bool.and_eq_true, decide_eq_true_eq, Instr.op, Instr.wellFormed, rotationUnused]
    tauto
  · rw [selects_full p 0x8 .hashX64_128_x16 (pat := 0x8) rfl]
    simp only [Bool.and_eq_true, decide_eq_true_eq, Instr.op, Instr.wellFormed, rotationUnused]
    tauto

end Sys2Proof
end

