-- ==== Sys2Proof/Laws/Rotate.lean ====
section
/-! SUPPORT. The rotation of the model is the circular rotation, and the laws of 40_rotate.md and 41_fmix.md that the model's
functions are built from; each unit's key-word mix and finalization mix equals the function of Safety.lean. -/
namespace Sys2Proof.Machine

/-- `rotl` is the library's circular rotation. -/
theorem rotl_eq_rotateLeft {w : Nat} (x : BitVec w) (r : Fin w) : rotl x r = x.rotateLeft r.val := by
  simp only [rotl, BitVec.rotateLeft, BitVec.rotateLeftAux, Nat.mod_eq_of_lt r.isLt]

/-- Bit `j` of the rotation is bit `j - r`, counted around the word (40_rotate.md R80). -/
theorem getLsbD_rotl {w : Nat} (x : BitVec w) (r : Fin w) {j : Nat} (hj : j < w) :
    (rotl x r).getLsbD j = x.getLsbD ((j + (w - r.val)) % w) := by
  have hr := r.isLt
  simp only [rotl, BitVec.getLsbD_or, BitVec.getLsbD_shiftLeft, BitVec.getLsbD_ushiftRight, hj, decide_true,
    Bool.true_and]
  by_cases h : j < r.val
  · simp only [h, decide_true, Bool.not_true, Bool.false_and, Bool.false_or]
    rw [Nat.mod_eq_of_lt (by omega), Nat.add_comm]
  · have h2 : (j + (w - r.val)) % w = j - r.val := by
      rw [show j + (w - r.val) = (j - r.val) + w by omega, Nat.add_mod_right, Nat.mod_eq_of_lt (by omega)]
    rw [h2, BitVec.getLsbD_of_ge x (w - r.val + j) (by omega)]
    simp [h]

theorem mix32_eq (k : Word32) : mix32 k = mixWord 0xcc9e2d51 15 0x1b873593 k := by
  simp only [mix32, mixWord, rotl_eq_rotateLeft, C1_32, C2_32]; rfl

theorem mix1_128_eq (k : Word32) : mix1_128 k = mixWord 0x239b961b 15 0xab0e9789 k := by
  simp only [mix1_128, mixWord, rotl_eq_rotateLeft, C1_128, C2_128]; rfl

theorem mix2_128_eq (k : Word32) : mix2_128 k = mixWord 0xab0e9789 16 0x38b34ae5 k := by
  simp only [mix2_128, mixWord, rotl_eq_rotateLeft, C2_128, C3_128]; rfl

theorem mix3_128_eq (k : Word32) : mix3_128 k = mixWord 0x38b34ae5 17 0xa1e38b93 k := by
  simp only [mix3_128, mixWord, rotl_eq_rotateLeft, C3_128, C4_128]; rfl

theorem mix4_128_eq (k : Word32) : mix4_128 k = mixWord 0xa1e38b93 18 0x239b961b k := by
  simp only [mix4_128, mixWord, rotl_eq_rotateLeft, C4_128, C1_128]; rfl

theorem mix1_64_eq (k : Word64) : mix1_64 k = mixWord 0x87c37b91114253d5 31 0x4cf5ad432745937f k := by
  simp only [mix1_64, mixWord, rotl_eq_rotateLeft, C1_64, C2_64]; rfl

theorem mix2_64_eq (k : Word64) : mix2_64 k = mixWord 0x4cf5ad432745937f 33 0x87c37b91114253d5 k := by
  simp only [mix2_64, mixWord, rotl_eq_rotateLeft, C1_64, C2_64]; rfl

theorem fmix32_eq (h : Word32) : fmix32 h = avalanche32 h := rfl

theorem fmix64_eq (k : Word64) : fmix64 k = avalanche64 k := rfl

/-- A zero key word folds nothing, in every unit (R102, R122, R142: "maps 0 to 0"). -/
theorem mixWord_zero {w : Nat} (c d : BitVec w) (r : Nat) : mixWord c r d 0 = 0 := by
  simp [mixWord, BitVec.rotateLeft, BitVec.rotateLeftAux]

/-- A fold that is left out because its word is zero would have changed nothing. -/
theorem fold_eq_ite {w : Nat} {p : Prop} [Decidable p] (h : BitVec w) {k : BitVec w} {mix : BitVec w → BitVec w}
    (h0 : mix 0 = 0) (hk : ¬p → k = 0) : h ^^^ mix k = if p then h ^^^ mix k else h := by
  split
  · rfl
  · rw [hk ‹_›, h0, show h ^^^ (0 : BitVec w) = h from BitVec.xor_zero]

/-! ### The steps of the finalization mix are bijections (00_scope.md R13) -/

/-- Multiplication by an odd constant has an inverse. -/
theorem mul_injective {w : Nat} {c d : BitVec w} (h : c * d = 1) : Function.Injective fun x : BitVec w => x * c := by
  intro x y hxy
  have := congrArg (· * d) hxy
  simpa [BitVec.mul_assoc, h] using this

/-- Xor with the own right shift, by at least half the width, is its own inverse. -/
theorem xorShift_involutive {w n : Nat} (hn : w ≤ 2 * n) (x : BitVec w) :
    (x ^^^ (x >>> n)) ^^^ ((x ^^^ (x >>> n)) >>> n) = x := by
  ext i hi
  simp only [BitVec.getElem_xor, BitVec.getElem_ushiftRight, BitVec.getLsbD_xor, BitVec.getLsbD_ushiftRight]
  rw [BitVec.getLsbD_of_ge x (n + (n + i)) (by omega)]
  simp

end Sys2Proof.Machine
end

