-- ==== Sys2Proof/Laws/State.lean ====
section
/-! SUPPORT. What each shared update of the state does to each field, true by unfolding; later proofs rewrite with these. -/
namespace Sys2Proof.Machine.State

/-! ### Command acceptance -/

@[simp] theorem accept_cfg (op f) (s : State) : (s.accept op f).cfg = s.cfg := rfl
@[simp] theorem accept_mem (op f) (s : State) : (s.accept op f).mem = s.mem := rfl
@[simp] theorem accept_inputs (op f) (s : State) : (s.accept op f).inputs = s.inputs := rfl
@[simp] theorem accept_responses (op f) (s : State) : (s.accept op f).responses = s.responses := rfl
@[simp] theorem accept_latch (op f) (s : State) : (s.accept op f).latch = ⟨op, f⟩ := rfl
@[simp] theorem accept_x86_32 (op f) (s : State) : (s.accept op f).x86_32 = s.x86_32 := rfl
@[simp] theorem accept_x86_128 (op f) (s : State) : (s.accept op f).x86_128 = s.x86_128 := rfl
@[simp] theorem accept_x64_128 (op f) (s : State) : (s.accept op f).x64_128 = s.x64_128 := rfl
@[simp] theorem accept_blockIx (op f) (s : State) : (s.accept op f).blockIx = s.blockIx := rfl
@[simp] theorem accept_group0 (op f) (s : State) : (s.accept op f).group0 = s.group0 := rfl
@[simp] theorem accept_group1 (op f) (s : State) : (s.accept op f).group1 = s.group1 := rfl
@[simp] theorem accept_status (op f) (s : State) : (s.accept op f).status = s.status := rfl
@[simp] theorem accept_res (op f) (s : State) : (s.accept op f).res = s.res := rfl
@[simp] theorem accept_draws (op f) (s : State) : (s.accept op f).draws = s.draws := rfl

/-! ### Forming the response -/

@[simp] theorem respond_cfg (st r) (s : State) : (s.respond st r).cfg = s.cfg := rfl
@[simp] theorem respond_mem (st r) (s : State) : (s.respond st r).mem = s.mem := rfl
@[simp] theorem respond_inputs (st r) (s : State) : (s.respond st r).inputs = s.inputs := rfl
@[simp] theorem respond_responses (st r) (s : State) : (s.respond st r).responses = s.responses := rfl
@[simp] theorem respond_latch (st r) (s : State) : (s.respond st r).latch = s.latch := rfl
@[simp] theorem respond_x86_32 (st r) (s : State) : (s.respond st r).x86_32 = s.x86_32 := rfl
@[simp] theorem respond_x86_128 (st r) (s : State) : (s.respond st r).x86_128 = s.x86_128 := rfl
@[simp] theorem respond_x64_128 (st r) (s : State) : (s.respond st r).x64_128 = s.x64_128 := rfl
@[simp] theorem respond_blockIx (st r) (s : State) : (s.respond st r).blockIx = s.blockIx := rfl
@[simp] theorem respond_group0 (st r) (s : State) : (s.respond st r).group0 = s.group0 := rfl
@[simp] theorem respond_group1 (st r) (s : State) : (s.respond st r).group1 = s.group1 := rfl
@[simp] theorem respond_status (st r) (s : State) : (s.respond st r).status = st.code := rfl
@[simp] theorem respond_res (st r) (s : State) : (s.respond st r).res = r := rfl
@[simp] theorem respond_draws (st r) (s : State) : (s.respond st r).draws = s.draws := rfl

/-- A failure is a response with `RES = 0` (60_exceptions.md R195). -/
theorem fail_eq (st) (s : State) : s.fail st = s.respond st 0 := rfl

@[simp] theorem fail_cfg (st) (s : State) : (s.fail st).cfg = s.cfg := rfl
@[simp] theorem fail_mem (st) (s : State) : (s.fail st).mem = s.mem := rfl
@[simp] theorem fail_inputs (st) (s : State) : (s.fail st).inputs = s.inputs := rfl
@[simp] theorem fail_responses (st) (s : State) : (s.fail st).responses = s.responses := rfl
@[simp] theorem fail_latch (st) (s : State) : (s.fail st).latch = s.latch := rfl
@[simp] theorem fail_status (st) (s : State) : (s.fail st).status = st.code := rfl
@[simp] theorem fail_res (st) (s : State) : (s.fail st).res = 0 := rfl
@[simp] theorem fail_draws (st) (s : State) : (s.fail st).draws = s.draws := rfl

/-! ### Registers becoming unspecified, and the response sent -/

@[simp] theorem forget_cfg (s : State) : s.forget.cfg = s.cfg := rfl
@[simp] theorem forget_mem (s : State) : s.forget.mem = s.mem := rfl
@[simp] theorem forget_inputs (s : State) : s.forget.inputs = s.inputs := rfl
@[simp] theorem forget_responses (s : State) : s.forget.responses = s.responses := rfl
@[simp] theorem forget_draws (s : State) : s.forget.draws = s.draws + 1 := rfl

@[simp] theorem deliver_cfg (h) (s : State) : (s.deliver h).cfg = s.cfg := rfl
@[simp] theorem deliver_mem (h) (s : State) : (s.deliver h).mem = s.mem := rfl
@[simp] theorem deliver_inputs (h) (s : State) : (s.deliver h).inputs = s.inputs := rfl
@[simp] theorem deliver_responses (h) (s : State) :
    (s.deliver h).responses = s.responses ++ [⟨h, responsePacket s.status s.res⟩] := rfl
@[simp] theorem deliver_draws (h) (s : State) : (s.deliver h).draws = s.draws + 1 := rfl

/-! ### The operands -/

@[simp] theorem accept_operand32 (op f) (s : State) : (s.accept op f).operand32 = f.a.setWidth 32 := rfl
@[simp] theorem accept_operand64 (op f) (s : State) : (s.accept op f).operand64 = f.a := rfl

/-- The operation of a HASH command runs only when every check has passed (60_exceptions.md R193, R194). -/
theorem runChecked_none (operation : State → State) (s : State) :
    s.runChecked none operation = (operation s).respond .ok 0 := rfl

theorem runChecked_some (st : Status) (operation : State → State) (s : State) :
    s.runChecked (some st) operation = s.fail st := rfl

end Sys2Proof.Machine.State

namespace Sys2Proof.Machine

/-! ### Vector registers -/

@[simp] theorem VReg.lane_ofLanes (g : Fin 8 → Word64) (l : Fin 8) : (VReg.ofLanes g).lane l = g l := by
  match l with
  | 0 | 1 | 2 | 3 | 4 | 5 | 6 | 7 => rfl

theorem VReg.ext_lane {v w : VReg} (h : ∀ l, v.lane l = w.lane l) : v = w := by
  cases v; cases w
  simp only [VReg.mk.injEq]
  exact ⟨h 0, h 1, h 2, h 3, h 4, h 5, h 6, h 7⟩

@[simp] theorem VGroup.h_withH (g : VGroup) (h : Fin 8 → Word64 × Word64) (l : Fin 8) : (g.withH h).h l = h l := by
  simp [VGroup.h, VGroup.withH]

@[simp] theorem VGroup.vk1_withH (g : VGroup) (h) : (g.withH h).vk1 = g.vk1 := rfl
@[simp] theorem VGroup.vk2_withH (g : VGroup) (h) : (g.withH h).vk2 = g.vk2 := rfl
@[simp] theorem VGroup.h_load (g : VGroup) (m base j) (l : Fin 8) : (g.load m base j).h l = g.h l := by
  simp only [VGroup.h, VGroup.load]
@[simp] theorem VGroup.vk1_load (g : VGroup) (m base j) : (g.load m base j).vk1 = m.slot base j := rfl
@[simp] theorem VGroup.vk2_load (g : VGroup) (m base j) : (g.load m base j).vk2 = m.slot base (j + 1) := rfl

/-- Lane `l` of a slot is the little-endian word at its place (45_hash_x64_128_x16.md R163). -/
@[simp] theorem Memory.slot_lane (m : Memory) (base j : Nat) (l : Fin 8) :
    (m.slot base j).lane l = m.read64 (base + 64 * j + 8 * l) := by
  simp [Memory.slot]

/-! ### The carrying on of an outcome -/

@[simp] theorem carryOn_next (t : State) (k : State → State) : carryOn (.next t) k = .next (k t) := rfl
@[simp] theorem carryOn_fault (e : Fault) (k : State → State) : carryOn (.fault e) k = .fault e := rfl
@[simp] theorem carryOn_refused (e : Refusal) (k : State → State) : carryOn (.refused e) k = .refused e := rfl

/-- A next state after carrying on comes from a next state before. -/
theorem carryOn_eq_next {o : Host.Outcome State Fault Refusal} {k : State → State} {u : State}
    (h : carryOn o k = .next u) : ∃ t, o = .next t ∧ u = k t := by
  cases o with
  | next t => exact ⟨t, rfl, by simpa using h.symm⟩
  | fault e => simp at h
  | refused e => simp at h

/-! ### Commands that something interferes with -/

section
variable (p : Packet) (m : Memory) (cells : List Host.Cell) (t : State)

@[simp] theorem halfWritten_cfg : (halfWritten p m t).cfg = t.cfg := rfl
@[simp] theorem halfWritten_inputs : (halfWritten p m t).inputs = t.inputs := rfl
@[simp] theorem halfWritten_responses : (halfWritten p m t).responses = t.responses := rfl
@[simp] theorem halfWritten_status : (halfWritten p m t).status = t.status := rfl
@[simp] theorem halfWritten_res : (halfWritten p m t).res = t.res := rfl

@[simp] theorem disturb_cfg : (disturb p cells t).cfg = t.cfg := by unfold disturb; split <;> rfl
@[simp] theorem disturb_inputs : (disturb p cells t).inputs = t.inputs := by unfold disturb; split <;> rfl
@[simp] theorem disturb_responses : (disturb p cells t).responses = t.responses := by unfold disturb; split <;> rfl
@[simp] theorem disturb_status : (disturb p cells t).status = t.status := by unfold disturb; split <;> rfl
@[simp] theorem disturb_res : (disturb p cells t).res = t.res := by unfold disturb; split <;> rfl

@[simp] theorem cutShort_cfg : (cutShort p m t).cfg = t.cfg := rfl
@[simp] theorem cutShort_mem : (cutShort p m t).mem = (halfWritten p m t).mem := rfl
@[simp] theorem cutShort_inputs : (cutShort p m t).inputs = t.inputs := rfl
@[simp] theorem cutShort_responses : (cutShort p m t).responses = t.responses := rfl

@[simp] theorem disturbAndCut_cfg : (disturbAndCut p m cells t).cfg = t.cfg := disturb_cfg p cells (halfWritten p m t)
@[simp] theorem disturbAndCut_mem : (disturbAndCut p m cells t).mem = (disturb p cells (halfWritten p m t)).mem := rfl
@[simp] theorem disturbAndCut_inputs : (disturbAndCut p m cells t).inputs = t.inputs :=
  disturb_inputs p cells (halfWritten p m t)
@[simp] theorem disturbAndCut_responses : (disturbAndCut p m cells t).responses = t.responses :=
  disturb_responses p cells (halfWritten p m t)

end

end Sys2Proof.Machine
end

