-- ==== Sys2Proof/Laws/Memory.lean ====
section
/-! SUPPORT. The laws of memory: a read after a write, the canonical form, and the words built from bytes. -/
namespace Sys2Proof.Machine.Memory

/-! ### Reading -/

theorem read_of_all_gt {m : Memory} {a : Nat} (h : m.all (fun c => a < c.1) = true) : m.read a = blank := by
  induction m with
  | nil => rfl
  | cons c m ih =>
    simp only [List.all_cons, Bool.and_eq_true, decide_eq_true_eq] at h
    simp only [read, if_neg (show ¬ a = c.1 by omega)]
    exact ih h.2

theorem wf_cons {c : Host.Cell} {m : Memory} :
    wf (c :: m) = true ↔ c.2 ≠ blank ∧ m.all (fun x => c.1 < x.1) = true ∧ m.wf = true := by
  simp [wf, and_assoc]

/-- A bound below every address of a memory stays one after a write at or above it. -/
theorem all_gt_write {m : Memory} {k a : Nat} (b : Byte) (h : m.all (fun c => k < c.1) = true) (hk : k < a) :
    (m.write a b).all (fun c => k < c.1) = true := by
  induction m with
  | nil =>
    unfold write
    split <;> simp [hk]
  | cons c m ih =>
    simp only [List.all_cons, Bool.and_eq_true, decide_eq_true_eq] at h
    obtain ⟨k', v⟩ := c
    have hm := h.2
    have hk' : k < k' := h.1
    unfold write
    split
    · split <;> simp [hk, hk', hm]
    · split
      · split
        · exact hm
        · simp only [List.all_cons, hm, Bool.and_true, decide_eq_true_eq]
          exact hk
      · simp only [List.all_cons, Bool.and_eq_true, decide_eq_true_eq]
        exact ⟨hk', ih hm⟩

/-- Every write keeps the canonical form. -/
theorem wf_write {m : Memory} (a : Nat) (b : Byte) (h : m.wf = true) : (m.write a b).wf = true := by
  induction m with
  | nil =>
    unfold write
    split
    · rfl
    · simp [wf, *]
  | cons c m ih =>
    obtain ⟨k, v⟩ := c
    have hc := wf_cons.1 h
    unfold write
    split
    · rename_i hak
      split
      · exact h
      · refine wf_cons.2 ⟨‹_›, ?_, h⟩
        simp only [List.all_cons, Bool.and_eq_true, decide_eq_true_eq]
        refine ⟨hak, List.all_eq_true.2 fun x hx => ?_⟩
        have := List.all_eq_true.1 hc.2.1 x hx
        simp only [decide_eq_true_eq] at this ⊢
        omega
    · split
      · rename_i hak
        split
        · exact hc.2.2
        · refine wf_cons.2 ⟨‹_›, ?_, hc.2.2⟩
          simpa [hak] using hc.2.1
      · exact wf_cons.2 ⟨hc.1, all_gt_write b hc.2.1 (by simp only; omega), ih hc.2.2⟩

/-- A read after a write to the same address gives the byte written. -/
theorem read_write_self {m : Memory} (a : Nat) (b : Byte) (h : m.wf = true) : (m.write a b).read a = b := by
  induction m with
  | nil =>
    unfold write
    split <;> simp [read, *]
  | cons c m ih =>
    obtain ⟨k, v⟩ := c
    have hc := wf_cons.1 h
    unfold write
    split
    · rename_i hak
      split
      · rename_i hb
        rw [hb]
        apply read_of_all_gt
        simp only [List.all_cons, Bool.and_eq_true, decide_eq_true_eq]
        refine ⟨hak, List.all_eq_true.2 fun x hx => ?_⟩
        have := List.all_eq_true.1 hc.2.1 x hx
        simp only [decide_eq_true_eq] at this ⊢
        omega
      · simp [read]
    · split
      · rename_i hak
        split
        · rename_i hb
          rw [hb, hak]
          exact read_of_all_gt hc.2.1
        · simp [read]
      · rename_i hak
        simp only [read, if_neg hak]
        exact ih hc.2.2

/-- A write leaves every other address alone. -/
theorem read_write_of_ne {m : Memory} {a a' : Nat} (b : Byte) (hne : a' ≠ a) :
    (m.write a b).read a' = m.read a' := by
  induction m with
  | nil =>
    unfold write
    split <;> simp [read, hne]
  | cons c m ih =>
    obtain ⟨k, v⟩ := c
    unfold write
    split
    · split <;> simp [read, hne]
    · split
      · rename_i hak
        have : ¬ a' = k := by omega
        split <;> simp [read, this, hne]
      · simp [read, ih]

theorem read_write {m : Memory} (a a' : Nat) (b : Byte) (h : m.wf = true) :
    (m.write a b).read a' = if a' = a then b else m.read a' := by
  split
  · subst_vars
    exact read_write_self _ b h
  · exact read_write_of_ne b ‹_›

/-! ### Staying inside the address space -/

theorem within_write {m : Memory} {a n : Nat} (b : Byte) (h : m.within n = true) (ha : a < n) :
    (m.write a b).within n = true := by
  induction m with
  | nil =>
    unfold write
    split <;> simp [within, ha]
  | cons c m ih =>
    obtain ⟨k, v⟩ := c
    have hc : k < n ∧ Memory.within m n = true := by simpa [within] using h
    unfold write
    split
    · split
      · exact h
      · simp only [within, List.all_cons, Bool.and_eq_true, decide_eq_true_eq]
        exact ⟨ha, hc.1, hc.2⟩
    · split
      · split
        · exact hc.2
        · simp only [within, List.all_cons, Bool.and_eq_true, decide_eq_true_eq]
          exact ⟨ha, hc.2⟩
      · simp only [within, List.all_cons, Bool.and_eq_true, decide_eq_true_eq]
        exact ⟨hc.1, ih hc.2⟩

/-! ### Equal memories are equal data -/

theorem read_of_lt {k : Nat} {m : Memory} (h : m.all (fun c => k < c.1) = true) {a : Nat} (ha : a ≤ k) :
    m.read a = blank := by
  apply read_of_all_gt
  refine List.all_eq_true.2 fun x hx => ?_
  have := List.all_eq_true.1 h x hx
  simp only [decide_eq_true_eq] at this ⊢
  omega

/-- Two memories in canonical form that read the same everywhere are the same list. -/
theorem ext {m m' : Memory} (h : m.wf = true) (h' : m'.wf = true) (hr : ∀ a, m.read a = m'.read a) : m = m' := by
  induction m generalizing m' with
  | nil =>
    cases m' with
    | nil => rfl
    | cons c m' =>
      have := hr c.1
      simp only [read, if_true] at this
      exact absurd this.symm (wf_cons.1 h').1
  | cons c m ih =>
    have hc := wf_cons.1 h
    cases m' with
    | nil =>
      have := hr c.1
      simp only [read, if_true] at this
      exact absurd this hc.1
    | cons c' m' =>
      have hc' := wf_cons.1 h'
      have hk : c.1 = c'.1 := by
        rcases Nat.lt_trichotomy c.1 c'.1 with hlt | heq | hgt
        · have := hr c.1
          simp only [read, if_true, if_neg (show ¬ c.1 = c'.1 by omega), read_of_lt hc'.2.1 hlt.le] at this
          exact absurd this hc.1
        · exact heq
        · have := hr c'.1
          simp only [read, if_true, if_neg (show ¬ c'.1 = c.1 by omega), read_of_lt hc.2.1 hgt.le] at this
          exact absurd this.symm hc'.1
      have hv : c.2 = c'.2 := by
        have := hr c.1
        simpa only [read, if_true, if_pos hk] using this
      have hm : m = m' := by
        refine ih hc.2.2 hc'.2.2 fun a => ?_
        have := hr a
        simp only [read, ← hk] at this
        by_cases ha : a = c.1
        · rw [ha, read_of_lt hc.2.1 le_rfl, read_of_lt hc'.2.1 (le_of_eq hk)]
        · simpa only [if_neg ha] using this
      rw [hm, Prod.ext hk hv]

/-! ### Little-endian words -/

theorem memRead_congr {m m' : Memory} {addr n : Nat} (h : ∀ k, k < n → m.read (addr + k) = m'.read (addr + k)) :
    m.memRead addr n = m'.memRead addr n := by
  induction n generalizing addr with
  | zero => rfl
  | succ n ih =>
    simp only [memRead]
    rw [show m.read addr = m'.read addr from h 0 (by omega), ih fun k hk => ?_]
    have := h (k + 1) (by omega)
    rwa [show addr + 1 + k = addr + (k + 1) by omega]

theorem memRead_lt (m : Memory) (addr n : Nat) : m.memRead addr n < 256 ^ n := by
  induction n generalizing addr with
  | zero => simp [memRead]
  | succ n ih =>
    have hb := (m.read addr).isLt
    have := ih (addr + 1)
    simp only [memRead, pow_succ]
    omega

/-- Byte `k` of the number read is the byte at `addr + k` (00_scope.md R9). -/
theorem memRead_byte {m : Memory} {addr n k : Nat} (hk : k < n) :
    m.memRead addr n / 256 ^ k % 256 = (m.read (addr + k)).toNat := by
  induction n generalizing addr k with
  | zero => omega
  | succ n ih =>
    have hb := (m.read addr).isLt
    simp only [memRead]
    cases k with
    | zero => simp only [pow_zero, Nat.div_one, Nat.add_zero]; omega
    | succ k =>
      rw [pow_succ, Nat.mul_comm (256 ^ k), ← Nat.div_div_eq_div_mul,
        show ((m.read addr).toNat + 256 * m.memRead (addr + 1) n) / 256 = m.memRead (addr + 1) n by omega,
        ih (by omega), show addr + 1 + k = addr + (k + 1) by omega]

theorem wf_memWrite {m : Memory} (addr n v : Nat) (h : m.wf = true) : (m.memWrite addr n v).wf = true := by
  induction n generalizing m addr v with
  | zero => exact h
  | succ n ih => exact ih _ _ (wf_write _ _ h)

theorem within_memWrite {m : Memory} {addr n lim : Nat} (v : Nat) (h : m.within lim = true) (ha : addr + n ≤ lim) :
    (m.memWrite addr n v).within lim = true := by
  induction n generalizing m addr v with
  | zero => exact h
  | succ n ih => exact ih _ (within_write _ h (by omega)) (by omega)

theorem read_memWrite_outside {m : Memory} {addr n a : Nat} (v : Nat) (ha : a < addr ∨ addr + n ≤ a) :
    (m.memWrite addr n v).read a = m.read a := by
  induction n generalizing m addr v with
  | zero => rfl
  | succ n ih => rw [memWrite, ih _ (by omega), read_write_of_ne _ (by omega)]

/-- The byte at `addr + k` after `MemWrite(addr, n, v)` is byte `k` of `v` (00_scope.md R9). -/
theorem read_memWrite_inside {m : Memory} {addr n k : Nat} (v : Nat) (h : m.wf = true) (hk : k < n) :
    (m.memWrite addr n v).read (addr + k) = BitVec.ofNat 8 (v / 256 ^ k) := by
  induction n generalizing m addr v k with
  | zero => omega
  | succ n ih =>
    rw [memWrite]
    cases k with
    | zero =>
      rw [read_memWrite_outside _ (by omega)]
      simpa using read_write_self addr _ h
    | succ k =>
      rw [show addr + (k + 1) = addr + 1 + k by omega, ih _ (wf_write _ _ h) (by omega), Nat.div_div_eq_div_mul,
        pow_succ, Nat.mul_comm]

/-- What `MemWrite` changes, in one equation: inside its bytes the value, outside nothing. -/
theorem read_memWrite {m : Memory} (addr n v a : Nat) (h : m.wf = true) :
    (m.memWrite addr n v).read a =
      if addr ≤ a ∧ a < addr + n then BitVec.ofNat 8 (v / 256 ^ (a - addr)) else m.read a := by
  split
  · rename_i ha
    obtain ⟨k, rfl⟩ := Nat.exists_eq_add_of_le ha.1
    rw [read_memWrite_inside v h (by omega), show addr + k - addr = k by omega]
  · exact read_memWrite_outside v (by omega)

theorem wf_write32 {m : Memory} (a : Nat) (v : Word32) (h : m.wf = true) : (m.write32 a v).wf = true := wf_memWrite _ _ _ h

theorem wf_write64 {m : Memory} (a : Nat) (v : Word64) (h : m.wf = true) : (m.write64 a v).wf = true := wf_memWrite _ _ _ h

theorem within_write32 {m : Memory} {a lim : Nat} (v : Word32) (h : m.within lim = true) (ha : a + 4 ≤ lim) :
    (m.write32 a v).within lim = true := within_memWrite _ h ha

theorem within_write64 {m : Memory} {a lim : Nat} (v : Word64) (h : m.within lim = true) (ha : a + 8 ≤ lim) :
    (m.write64 a v).within lim = true := within_memWrite _ h ha

theorem read_write32_outside {m : Memory} {addr a : Nat} (v : Word32) (ha : a < addr ∨ addr + 4 ≤ a) :
    (m.write32 addr v).read a = m.read a := read_memWrite_outside _ ha

theorem read_write64_outside {m : Memory} {addr a : Nat} (v : Word64) (ha : a < addr ∨ addr + 8 ≤ a) :
    (m.write64 addr v).read a = m.read a := read_memWrite_outside _ ha

theorem wf_writeWords64 {m : Memory} (a : Nat) (ws : List Word64) (h : m.wf = true) : (m.writeWords64 a ws).wf = true := by
  induction ws generalizing m a with
  | nil => exact h
  | cons w ws ih => exact ih _ (wf_write64 _ _ h)

theorem within_writeWords64 {m : Memory} {a lim : Nat} (ws : List Word64) (h : m.within lim = true)
    (ha : a + 8 * ws.length ≤ lim) : (m.writeWords64 a ws).within lim = true := by
  induction ws generalizing m a with
  | nil => exact h
  | cons w ws ih =>
    simp only [List.length_cons] at ha
    exact ih (within_memWrite _ h (by omega)) (by omega)

theorem read_writeWords64_outside {m : Memory} {addr a : Nat} (ws : List Word64)
    (ha : a < addr ∨ addr + 8 * ws.length ≤ a) : (m.writeWords64 addr ws).read a = m.read a := by
  induction ws generalizing m addr with
  | nil => rfl
  | cons w ws ih =>
    simp only [List.length_cons] at ha
    rw [writeWords64, ih (by omega), write64, read_memWrite_outside _ (by omega)]

/-- Byte `k` of word `j` of the list is at `addr + 8*j + k` afterwards. -/
theorem read_writeWords64_inside {m : Memory} {addr j k : Nat} (ws : List Word64) (h : m.wf = true)
    (hj : j < ws.length) (hk : k < 8) :
    (m.writeWords64 addr ws).read (addr + 8 * j + k) = BitVec.ofNat 8 ((ws[j]).toNat / 256 ^ k) := by
  induction ws generalizing m addr j with
  | nil => simp at hj
  | cons w ws ih =>
    cases j with
    | zero =>
      rw [writeWords64, read_writeWords64_outside _ (by omega)]
      exact read_memWrite_inside _ h hk
    | succ j =>
      rw [writeWords64, show addr + 8 * (j + 1) + k = addr + 8 + 8 * j + k by omega]
      exact ih (wf_write64 _ _ h) (by simpa using hj)

/-! ### Stores of lists of bytes, and filling -/

theorem wf_store {m : Memory} (cells : List Host.Cell) (h : m.wf = true) : (m.store cells).wf = true := by
  induction cells generalizing m with
  | nil => exact h
  | cons c cells ih => exact ih (wf_write _ _ h)

theorem within_store {m : Memory} {lim : Nat} (cells : List Host.Cell) (h : m.within lim = true)
    (hc : ∀ c ∈ cells, c.1 < lim) : (m.store cells).within lim = true := by
  induction cells generalizing m with
  | nil => exact h
  | cons c cells ih =>
    exact ih (within_write _ h (hc c (by simp))) fun x hx => hc x (by simp [hx])

theorem read_store_of_not_mem {m : Memory} {a : Nat} (cells : List Host.Cell) (hc : ∀ c ∈ cells, c.1 ≠ a) :
    (m.store cells).read a = m.read a := by
  induction cells generalizing m with
  | nil => rfl
  | cons c cells ih =>
    have h1 := ih (m := m.write c.1 c.2) fun x hx => hc x (by simp [hx])
    exact h1.trans (read_write_of_ne _ (hc c (by simp)).symm)

theorem wf_fill {m : Memory} (base n : Nat) (byte : Nat → Byte) (h : m.wf = true) : (m.fill base byte n).wf = true := by
  induction n with
  | zero => exact h
  | succ n ih => exact wf_write _ _ ih

theorem within_fill {m : Memory} {base n lim : Nat} (byte : Nat → Byte) (h : m.within lim = true)
    (hb : n = 0 ∨ base + n ≤ lim) : (m.fill base byte n).within lim = true := by
  induction n with
  | zero => exact h
  | succ n ih => exact within_write _ (ih (by omega)) (by omega)

theorem read_fill {m : Memory} (base n : Nat) (byte : Nat → Byte) (a : Nat) (h : m.wf = true) :
    (m.fill base byte n).read a = if base ≤ a ∧ a < base + n then byte (a - base) else m.read a := by
  induction n with
  | zero => simp [fill]
  | succ n ih =>
    rw [fill, read_write _ _ _ (wf_fill _ _ _ h), ih]
    by_cases hn : a = base + n
    · subst hn; simp
    · simp only [if_neg hn]
      congr 1
      simp only [eq_iff_iff]
      omega

end Sys2Proof.Machine.Memory
end

