-- ==== Sys2Proof/Laws/Words.lean ====
section
/-! SUPPORT. Words and bytes: a little-endian word read from memory, a tail word, a slot word and a word of the key (as a list
of bytes) are all the same sum over bytes; a word written is found again byte by byte. -/
namespace Sys2Proof.Machine

/-- The number whose byte `k` is `g k`, for `k < n`. -/
def leSum (g : Nat → Byte) : Nat → Nat
  | 0 => 0
  | n + 1 => (g 0).toNat + 256 * leSum (fun k => g (k + 1)) n

theorem leSum_congr {g h : Nat → Byte} {n : Nat} (e : ∀ k, k < n → g k = h k) : leSum g n = leSum h n := by
  induction n generalizing g h with
  | zero => rfl
  | succ n ih => rw [leSum, leSum, e 0 (by omega), ih fun k hk => e (k + 1) (by omega)]

theorem leSum_zero (n : Nat) : leSum (fun _ => 0) n = 0 := by
  induction n with
  | zero => rfl
  | succ n ih => rw [leSum, ih]; rfl

theorem memRead_eq_leSum (m : Memory) (addr n : Nat) : m.memRead addr n = leSum (fun k => m.read (addr + k)) n := by
  induction n generalizing addr with
  | zero => rfl
  | succ n ih => rw [Memory.memRead, ih, leSum]; simp only [Nat.add_zero, Nat.add_assoc, Nat.add_comm 1]

/-- A word of the key is the sum of its bytes, missing bytes being zero. -/
theorem leNat_slice (key : List Byte) (i n : Nat) :
    leNat ((key.drop i).take n) = leSum (fun k => key.getD (i + k) 0) n := by
  induction n generalizing i with
  | zero => simp [leNat, leSum]
  | succ n ih =>
    rcases Nat.lt_or_ge i key.length with hi | hi
    · rw [List.drop_eq_getElem_cons hi, List.take_succ_cons, leNat, ih, leSum]
      simp only [Nat.add_zero, List.getD_eq_getElem?_getD, List.getElem?_eq_getElem hi, Option.getD_some]
      congr 3
      funext k
      rw [show i + 1 + k = i + (k + 1) by omega]
    · rw [List.drop_eq_nil_of_le hi, List.take_nil, leNat,
        leSum_congr (h := fun _ => 0) fun k _ => List.getD_eq_default _ _ (by omega), leSum_zero]

theorem keyWord_eq_leSum (w : Nat) (key : List Byte) (i n : Nat) :
    keyWord w key i n = BitVec.ofNat w (leSum (fun k => key.getD (i + k) 0) n) := by
  rw [keyWord, leNat_slice]

@[simp] theorem length_bytesAt (m : Memory) (addr n : Nat) : (bytesAt m addr n).length = n := by simp [bytesAt]

theorem getD_bytesAt (m : Memory) (addr n k : Nat) :
    (bytesAt m addr n).getD k 0 = if k < n then m.read (addr + k) else 0 := by
  simp only [bytesAt, List.getD_eq_getElem?_getD, List.getElem?_map]
  split
  · rw [List.getElem?_range ‹_›]; rfl
  · rw [List.getElem?_eq_none (by simp only [List.length_range]; omega)]; rfl

/-- Equal bytes, equal lists of bytes. -/
theorem bytesAt_congr {m m' : Memory} {addr addr' n : Nat} (h : ∀ k, k < n → m.read (addr + k) = m'.read (addr' + k)) :
    bytesAt m addr n = bytesAt m' addr' n := by
  simp only [bytesAt]
  exact List.map_congr_left fun k hk => h k (List.mem_range.1 hk)

/-- A word inside the key is the word read from memory where the key lies. -/
theorem read32_eq_keyWord {m : Memory} {addr len i : Nat} (h : i + 4 ≤ len) :
    m.read32 (addr + i) = keyWord 32 (bytesAt m addr len) i 4 := by
  rw [keyWord_eq_leSum, Memory.read32, memRead_eq_leSum]
  refine congrArg (BitVec.ofNat 32) (leSum_congr fun k hk => ?_)
  rw [getD_bytesAt, if_pos (by omega), Nat.add_assoc]

theorem read64_eq_keyWord {m : Memory} {addr len i : Nat} (h : i + 8 ≤ len) :
    m.read64 (addr + i) = keyWord 64 (bytesAt m addr len) i 8 := by
  rw [keyWord_eq_leSum, Memory.read64, memRead_eq_leSum]
  refine congrArg (BitVec.ofNat 64) (leSum_congr fun k hk => ?_)
  rw [getD_bytesAt, if_pos (by omega), Nat.add_assoc]

/-! ### The tail word: bytes shifted to their places and xored are the sum of the bytes (90_conflicts.md C6) -/

/-- Bit `i` of the sum of `n` bytes is bit `i mod 8` of byte `i / 8`. -/
theorem testBit_leSum (b : Nat → Byte) (n i : Nat) :
    (leSum b n).testBit i = (decide (i < 8 * n) && (b (i / 8)).getLsbD (i % 8)) := by
  induction n generalizing b i with
  | zero => simp [leSum]
  | succ n ih =>
    have h := Nat.testBit_two_pow_mul_add (leSum (fun k => b (k + 1)) n) (i := 8) (b 0).isLt i
    rw [show 2 ^ 8 * leSum (fun k => b (k + 1)) n + (b 0).toNat = leSum b (n + 1) by rw [leSum]; omega] at h
    rw [h]
    split
    · rename_i hi
      rw [Nat.div_eq_of_lt hi, Nat.mod_eq_of_lt hi]
      simp only [show i < 8 * (n + 1) by omega, decide_true, Bool.true_and]
      rfl
    · rename_i hi
      rw [ih, show (i - 8) / 8 + 1 = i / 8 by omega, show (i - 8) % 8 = i % 8 by omega]
      congr 1
      exact decide_eq_decide.2 (by omega)

/-- The xor of `n` bytes, each zero-extended and shifted to its place. -/
def xorBytes (w : Nat) (b : Nat → Byte) : Nat → BitVec w
  | 0 => 0
  | n + 1 => xorBytes w b n ^^^ (b n).setWidth w <<< (8 * n)

theorem getLsbD_xorBytes (w : Nat) (b : Nat → Byte) (n i : Nat) :
    (xorBytes w b n).getLsbD i = (decide (i < w) && (decide (i < 8 * n) && (b (i / 8)).getLsbD (i % 8))) := by
  induction n with
  | zero => simp [xorBytes]
  | succ n ih =>
    rw [xorBytes, BitVec.getLsbD_xor, ih, BitVec.getLsbD_shiftLeft, BitVec.getLsbD_setWidth]
    by_cases hw : i < w
    · rcases Nat.lt_or_ge i (8 * n) with hi | hi
      · simp [hi, show i < 8 * (n + 1) by omega]
      · rcases Nat.lt_or_ge i (8 * (n + 1)) with hj | hj
        · simp [hw, hj, show ¬ i < 8 * n by omega, show i - 8 * n < w by omega, show i / 8 = n by omega,
            show i % 8 = i - 8 * n by omega]
        · simp [hw, show ¬ i < 8 * n by omega, show ¬ i < 8 * (n + 1) by omega,
            BitVec.getLsbD_of_ge (b n) (i - 8 * n) (by omega)]
    · simp [hw]

theorem xorBytes_eq (w : Nat) (b : Nat → Byte) (n : Nat) : xorBytes w b n = BitVec.ofNat w (leSum b n) := by
  apply BitVec.eq_of_getLsbD_eq
  intro i hi
  rw [getLsbD_xorBytes, BitVec.getLsbD_ofNat, testBit_leSum]

/-- The cascade of four bytes, highest offset first, is the xor of the shifted bytes in any order. -/
theorem cascade32_eq (b : Nat → Byte) :
    (((0 ^^^ (b 3).setWidth 32 <<< 24) ^^^ (b 2).setWidth 32 <<< 16) ^^^ (b 1).setWidth 32 <<< 8) ^^^ (b 0).setWidth 32
      = xorBytes 32 b 4 := by
  have h0 : (b 0).setWidth 32 <<< (8 * 0) = (b 0).setWidth 32 := by simp
  rw [xorBytes, xorBytes, xorBytes, xorBytes, xorBytes, h0]
  simp only [Nat.reduceMul]
  generalize (b 0).setWidth 32 = x0
  generalize (b 1).setWidth 32 <<< 8 = x1
  generalize (b 2).setWidth 32 <<< 16 = x2
  generalize (b 3).setWidth 32 <<< 24 = x3
  ac_rfl

theorem cascade64_eq (b : Nat → Byte) :
    (((((((0 ^^^ (b 7).setWidth 64 <<< 56) ^^^ (b 6).setWidth 64 <<< 48) ^^^ (b 5).setWidth 64 <<< 40)
      ^^^ (b 4).setWidth 64 <<< 32) ^^^ (b 3).setWidth 64 <<< 24) ^^^ (b 2).setWidth 64 <<< 16)
      ^^^ (b 1).setWidth 64 <<< 8) ^^^ (b 0).setWidth 64 = xorBytes 64 b 8 := by
  have h0 : (b 0).setWidth 64 <<< (8 * 0) = (b 0).setWidth 64 := by simp
  rw [xorBytes, xorBytes, xorBytes, xorBytes, xorBytes, xorBytes, xorBytes, xorBytes, xorBytes, h0]
  simp only [Nat.reduceMul]
  generalize (b 0).setWidth 64 = x0
  generalize (b 1).setWidth 64 <<< 8 = x1
  generalize (b 2).setWidth 64 <<< 16 = x2
  generalize (b 3).setWidth 64 <<< 24 = x3
  generalize (b 4).setWidth 64 <<< 32 = x4
  generalize (b 5).setWidth 64 <<< 40 = x5
  generalize (b 6).setWidth 64 <<< 48 = x6
  generalize (b 7).setWidth 64 <<< 56 = x7
  ac_rfl

theorem tailWord32_eq (m : Memory) (addr t j : Nat) :
    tailWord32 m addr t j = BitVec.ofNat 32 (leSum (fun k => tailByte m addr t (j + k)) 4) := by
  rw [← xorBytes_eq, ← cascade32_eq, tailWord32]

theorem tailWord64_eq (m : Memory) (addr t j : Nat) :
    tailWord64 m addr t j = BitVec.ofNat 64 (leSum (fun k => tailByte m addr t (j + k)) 8) := by
  rw [← xorBytes_eq, ← cascade64_eq, tailWord64]

/-- A word of the tail is the word of the key at the same place, the key being padded with zero bytes. -/
theorem tailWord32_eq_keyWord (m : Memory) (addr len blk j : Nat) :
    tailWord32 m (addr + blk * (len / blk)) (len % blk) j = keyWord 32 (bytesAt m addr len) (blk * (len / blk) + j) 4 := by
  rw [tailWord32_eq, keyWord_eq_leSum]
  refine congrArg (BitVec.ofNat 32) (leSum_congr fun k _ => ?_)
  have := Nat.div_add_mod len blk
  rw [getD_bytesAt, tailByte]
  generalize blk * (len / blk) = q at *
  split
  · rw [if_pos (by omega)]
    congr 1
    omega
  · rw [if_neg (by omega)]

theorem tailWord64_eq_keyWord (m : Memory) (addr len blk j : Nat) :
    tailWord64 m (addr + blk * (len / blk)) (len % blk) j = keyWord 64 (bytesAt m addr len) (blk * (len / blk) + j) 8 := by
  rw [tailWord64_eq, keyWord_eq_leSum]
  refine congrArg (BitVec.ofNat 64) (leSum_congr fun k _ => ?_)
  have := Nat.div_add_mod len blk
  rw [getD_bytesAt, tailByte]
  generalize blk * (len / blk) = q at *
  split
  · rw [if_pos (by omega)]
    congr 1
    omega
  · rw [if_neg (by omega)]

/-- A tail word that starts at or after the end of the tail is zero. -/
theorem tailWord32_of_le {m : Memory} {addr t j : Nat} (h : ¬j + 1 ≤ t) : tailWord32 m addr t j = 0 := by
  rw [tailWord32_eq, leSum_congr (h := fun _ => 0), leSum_zero]
  · rfl
  · intro k _
    rw [tailByte, if_neg (by omega)]

theorem tailWord64_of_le {m : Memory} {addr t j : Nat} (h : ¬j + 1 ≤ t) : tailWord64 m addr t j = 0 := by
  rw [tailWord64_eq, leSum_congr (h := fun _ => 0), leSum_zero]
  · rfl
  · intro k _
    rw [tailByte, if_neg (by omega)]

/-- A word of the key that starts at or after its end is zero. -/
theorem keyWord_of_ge (w : Nat) {key : List Byte} {i : Nat} (n : Nat) (h : key.length ≤ i) : keyWord w key i n = 0 := by
  rw [keyWord, List.drop_eq_nil_of_le h]
  simp [leNat]

/-! ### Words written -/

@[simp] theorem length_wordBytes {w : Nat} (n : Nat) (v : BitVec w) : (wordBytes n v).length = n := by simp [wordBytes]

theorem ofNat_div_eq_extractLsb' {w : Nat} (v : BitVec w) (k : Nat) :
    BitVec.ofNat 8 (v.toNat / 256 ^ k) = v.extractLsb' (8 * k) 8 := by
  apply BitVec.eq_of_toNat_eq
  rw [BitVec.extractLsb'_toNat, BitVec.toNat_ofNat, Nat.shiftRight_eq_div_pow, show 256 = 2 ^ 8 by rfl, ← pow_mul]

/-- The `n` bytes at the address just written are the bytes of the word (20_memory.md R41). -/
theorem bytesAt_memWrite {m : Memory} {w : Nat} (addr n : Nat) (v : BitVec w) (h : m.wf = true) :
    bytesAt (m.memWrite addr n v.toNat) addr n = wordBytes n v := by
  simp only [bytesAt, wordBytes]
  refine List.map_congr_left fun k hk => ?_
  rw [Memory.read_memWrite_inside _ h (List.mem_range.1 hk), ofNat_div_eq_extractLsb']

theorem bytesAt_append (m : Memory) (addr n k : Nat) : bytesAt m addr (n + k) = bytesAt m addr n ++ bytesAt m (addr + n) k := by
  simp only [bytesAt, List.range_add, List.map_append, List.map_map, Function.comp_def, Nat.add_assoc]

/-- Bytes that a write does not reach stay. -/
theorem bytesAt_memWrite_of_disjoint {m : Memory} {addr n a k : Nat} (v : Nat) (h : a + k ≤ addr ∨ addr + n ≤ a) :
    bytesAt (m.memWrite addr n v) a k = bytesAt m a k :=
  bytesAt_congr fun j hj => Memory.read_memWrite_outside v (by omega)

/-- A word written right behind `k` bytes. -/
theorem bytesAt_memWrite_append {m : Memory} {w : Nat} (addr k n : Nat) (v : BitVec w) (h : m.wf = true) :
    bytesAt (m.memWrite (addr + k) n v.toNat) addr (k + n) = bytesAt m addr k ++ wordBytes n v := by
  rw [bytesAt_append, bytesAt_memWrite _ _ _ h, bytesAt_memWrite_of_disjoint _ (.inl (Nat.le_refl _))]

theorem bytesAt_write32_append {m : Memory} (addr k : Nat) (v : Word32) (h : m.wf = true) :
    bytesAt (m.write32 (addr + k) v) addr (k + 4) = bytesAt m addr k ++ wordBytes 4 v := bytesAt_memWrite_append _ _ _ _ h

theorem bytesAt_write64_append {m : Memory} (addr k : Nat) (v : Word64) (h : m.wf = true) :
    bytesAt (m.write64 (addr + k) v) addr (k + 8) = bytesAt m addr k ++ wordBytes 8 v := bytesAt_memWrite_append _ _ _ _ h

theorem bytesAt_write32 {m : Memory} (addr : Nat) (v : Word32) (h : m.wf = true) :
    bytesAt (m.write32 addr v) addr 4 = wordBytes 4 v := bytesAt_memWrite _ _ _ h

theorem bytesAt_write64 {m : Memory} (addr : Nat) (v : Word64) (h : m.wf = true) :
    bytesAt (m.write64 addr v) addr 8 = wordBytes 8 v := bytesAt_memWrite _ _ _ h

/-- Words written one after another are found again, byte by byte (20_memory.md R41). -/
theorem bytesAt_writeWords64 {m : Memory} (addr : Nat) (ws : List Word64) (h : m.wf = true) :
    bytesAt (m.writeWords64 addr ws) addr (8 * ws.length) = ws.flatMap (wordBytes 8) := by
  induction ws generalizing m addr with
  | nil => rfl
  | cons w ws ih =>
    rw [List.length_cons, Nat.mul_succ, Nat.add_comm, bytesAt_append, Memory.writeWords64, List.flatMap_cons,
      ih _ (Memory.wf_write64 _ _ h)]
    congr 1
    exact (bytesAt_congr fun k hk => Memory.read_writeWords64_outside ws (by omega)).trans (bytesAt_memWrite addr 8 w h)

/-- Four 32-bit words written one after another (43_hash_x86_128.md R127). -/
theorem bytesAt_write32_four {m : Memory} (addr : Nat) (w1 w2 w3 w4 : Word32) (hm : m.wf = true) :
    bytesAt ((((m.write32 addr w1).write32 (addr + 4) w2).write32 (addr + 8) w3).write32 (addr + 12) w4) addr 16
      = quadBytes (w1, w2, w3, w4) := by
  have h1 := Memory.wf_write32 addr w1 hm
  have h2 := Memory.wf_write32 (addr + 4) w2 h1
  have h3 := Memory.wf_write32 (addr + 8) w3 h2
  rw [show 16 = 12 + 4 by rfl, bytesAt_write32_append addr 12 _ h3, show 12 = 8 + 4 by rfl, bytesAt_write32_append addr 8 _ h2,
    show 8 = 4 + 4 by rfl, bytesAt_write32_append addr 4 _ h1, bytesAt_write32 addr _ hm]
  rfl

/-- Two 64-bit words written one after another (44_hash_x64_128.md R147). -/
theorem bytesAt_write64_two {m : Memory} (addr : Nat) (w1 w2 : Word64) (hm : m.wf = true) :
    bytesAt ((m.write64 addr w1).write64 (addr + 8) w2) addr 16 = pairBytes (w1, w2) := by
  rw [show 16 = 8 + 8 by rfl, bytesAt_write64_append addr 8 _ (Memory.wf_write64 addr w1 hm), bytesAt_write64 addr _ hm]
  rfl

end Sys2Proof.Machine
end

