-- ==== Sys2Proof/Laws/HashX64_128.lean ====
section
/-! SUPPORT. What the operation of HASH_X64_128 does, all of it: the digest of the key's bytes goes to memory, and only the
unit's own registers and the block index change beside it. -/
namespace Sys2Proof.Machine

/-- The block step is the step of the digest function (44_hash_x64_128.md R144). -/
theorem block64_eq (h : Word64 × Word64) (k1 k2 : Word64) : block64 h k1 k2 = blockStepX64_128 h k1 k2 := by
  simp only [block64, blockStepX64_128, rotl_eq_rotateLeft, mix1_64_eq, mix2_64_eq]
  rfl

/-- The digest's last phase, from the states after the tail (44_hash_x64_128.md R146). -/
theorem final64_eq (h : Word64 × Word64) (len : Word64) :
    final64 h len = (let h := crossAdd2 (h.1 ^^^ len, h.2 ^^^ len)
      crossAdd2 (avalanche64 h.1, avalanche64 h.2)) := rfl

/-- The states after the blocks of a key, and its tail words folded and finalized, are the digest. -/
theorem digestX64_128_eq (seed len : Word32) {key : List Byte} (hk : key.length = len.toNat) :
    digestX64_128 seed key = final64 (tailFold64
      ((List.range (len.toNat / 16)).foldl
        (fun h i => block64 h (keyWord 64 key (16 * i) 8) (keyWord 64 key (16 * i + 8) 8))
        (seed.setWidth 64, seed.setWidth 64))
      (keyWord 64 key (16 * (len.toNat / 16)) 8) (keyWord 64 key (16 * (len.toNat / 16) + 8) 8)) (len.setWidth 64) := by
  simp only [digestX64_128, hk, final64_eq, tailFold64, mix1_64_eq, mix2_64_eq, block64_eq, BitVec.ofNat_toNat]

/-- The tail fold: the conditions on `t` may be dropped where the words left out are zero (44_hash_x64_128.md R145). -/
theorem foldTailX64_128_eq {t : Nat} {g : X64_128Regs} (h2 : ¬9 ≤ t → g.k2 = 0) (h1 : ¬1 ≤ t → g.k1 = 0) :
    foldTailX64_128 t g = g.withH (tailFold64 g.h g.k1 g.k2) := by
  simp only [X64_128Regs.withH, tailFold64, X64_128Regs.h]
  rw [fold_eq_ite g.h1 (by rw [mix1_64_eq, mixWord_zero]) h1, fold_eq_ite g.h2 (by rw [mix2_64_eq, mixWord_zero]) h2]
  unfold foldTailX64_128
  split_ifs <;> rfl

/-! ### The block loop -/

/-- The pair of states after `n` blocks of a key at `addr`, from block `i` on. -/
def foldBlocks64 (m : Memory) (addr : Nat) (h : Word64 × Word64) (i n : Nat) : Word64 × Word64 :=
  (List.range n).foldl (fun h j => block64 h (m.read64 (addr + 16 * (i + j))) (m.read64 (addr + 16 * (i + j) + 8))) h

theorem foldBlocks64_succ (m : Memory) (addr : Nat) (h : Word64 × Word64) (i n : Nat) :
    foldBlocks64 m addr h i (n + 1) = foldBlocks64 m addr
      (block64 h (m.read64 (addr + 16 * i)) (m.read64 (addr + 16 * i + 8))) (i + 1) n := by
  simp only [foldBlocks64, List.range_succ_eq_map, List.foldl_cons, List.foldl_map, Nat.add_zero, Nat.succ_eq_add_one]
  refine List.foldl_ext _ _ _ fun h' j _ => ?_
  rw [show i + (j + 1) = i + 1 + j by omega]

theorem blockX64_128_h (s : State) : (blockX64_128 s).x64_128.h = block64 s.x64_128.h
    (s.mem.read64 (s.keyAddr + 16 * s.index)) (s.mem.read64 (s.keyAddr + 16 * s.index + 8)) := by
  simp only [blockX64_128, readBlockX64_128, X64_128Regs.withH, X64_128Regs.h]

theorem blockX64_128_blockIx (s : State) : (blockX64_128 s).blockIx = s.blockIx + 1 := by
  simp only [blockX64_128, readBlockX64_128]

theorem blockX64_128_mem (s : State) : (blockX64_128 s).mem = s.mem := by
  simp only [blockX64_128, readBlockX64_128]

theorem blockX64_128_latch (s : State) : (blockX64_128 s).latch = s.latch := by
  simp only [blockX64_128, readBlockX64_128]

/-- The block loop: the pair of states is folded over the blocks, the key words hold some words, `I` has advanced. -/
theorem blockLoop_x64_128 (n : Nat) (s : State) (h : s.index + n < 2 ^ 32) :
    ∃ g : X64_128Regs, g.h = foldBlocks64 s.mem s.keyAddr s.x64_128.h s.index n ∧
      blockLoop blockX64_128 n s = { s with x64_128 := g, blockIx := s.blockIx + BitVec.ofNat 32 n } := by
  induction n generalizing s with
  | zero => exact ⟨s.x64_128, by simp [foldBlocks64], by simp [blockLoop]⟩
  | succ n ih =>
    have hi : (blockX64_128 s).index = s.index + 1 := by
      rw [State.index, blockX64_128_blockIx]
      exact toNat_add_one h
    have ha : (blockX64_128 s).keyAddr = s.keyAddr := by rw [State.keyAddr, blockX64_128_latch]
    obtain ⟨g, hg, hk⟩ := ih (blockX64_128 s) (by omega)
    refine ⟨g, ?_, ?_⟩
    · rw [hg, hi, blockX64_128_mem, ha, foldBlocks64_succ, blockX64_128_h]
    · rw [blockLoop, hk]
      simp only [blockX64_128, readBlockX64_128, add_one_add_ofNat]

/-- The blocks read from memory are the blocks of the key. -/
theorem foldBlocks64_eq_digest (m : Memory) (addr len : Nat) (h : Word64 × Word64) :
    foldBlocks64 m addr h 0 (len / 16) = (List.range (len / 16)).foldl
      (fun h i => block64 h (keyWord 64 (bytesAt m addr len) (16 * i) 8)
        (keyWord 64 (bytesAt m addr len) (16 * i + 8) 8)) h := by
  refine List.foldl_ext _ _ _ fun h' j hj => ?_
  have := List.mem_range.1 hj
  rw [Nat.zero_add, read64_eq_keyWord (len := len) (by omega), Nat.add_assoc, read64_eq_keyWord (len := len) (by omega)]

/-! ### The operation -/

/-- What the operation of HASH_X64_128 does (44_hash_x64_128.md R141 to R147). -/
theorem operationX64_128_eq (s : State) :
    ∃ g : X64_128Regs, g.h = digestX64_128 s.latch.f.seed (bytesAt s.mem s.keyAddr s.len) ∧
      operationX64_128 s = { s with
        x64_128 := g
        blockIx := BitVec.ofNat 32 (nblocks s.latch.f 16)
        mem := (s.mem.write64 s.outAddr g.h1).write64 (s.outAddr + 8) g.h2 } := by
  obtain ⟨g, hg, hk⟩ := blockLoop_x64_128 (nblocks s.latch.f 16) (initX64_128 s) (nblocks_lt _)
  have hg' : g.h = foldBlocks64 s.mem s.keyAddr (s.seed64, s.seed64) 0 (s.len / 16) := hg
  rw [foldBlocks64_eq_digest] at hg'
  obtain ⟨word, hword⟩ : ∃ w : Nat → Word64, w = tailWord64 s.mem (tailAddr s.latch.f 16) (tailLen s.latch.f 16) := ⟨_, rfl⟩
  have hw (i : Nat) : word i = keyWord 64 (bytesAt s.mem s.keyAddr s.len) (16 * (s.len / 16) + i) 8 :=
    hword ▸ tailWord64_eq_keyWord s.mem s.keyAddr s.len 16 i
  have hw0 : word 0 = keyWord 64 (bytesAt s.mem s.keyAddr s.len) (16 * (s.len / 16)) 8 := hw 0
  have hz (j : Nat) (h : ¬j + 1 ≤ tailLen s.latch.f 16) : word j = 0 := hword ▸ tailWord64_of_le h
  let g1 : X64_128Regs := ⟨g.h1, g.h2, word 0, word 8⟩
  have hf : foldTailX64_128 (tailLen s.latch.f 16) g1 = g1.withH (tailFold64 g.h (word 0) (word 8)) :=
    foldTailX64_128_eq (g := g1) (hz 8) (hz 0)
  have ht : tailX64_128 (blockLoop blockX64_128 (nblocks s.latch.f 16) (initX64_128 s)) = { s with
      x64_128 := g1.withH (tailFold64 g.h (word 0) (word 8))
      blockIx := BitVec.ofNat 32 (nblocks s.latch.f 16) } := by
    rw [tailX64_128, hk, ← hf]
    simp only [readTailX64_128, initX64_128, show ∀ x : Word32, 0 + x = x from BitVec.zero_add, ← hword, g1]
  refine ⟨(g1.withH (tailFold64 g.h (word 0) (word 8))).withH (final64 (tailFold64 g.h (word 0) (word 8)) s.len64), ?_, ?_⟩
  · rw [digestX64_128_eq s.latch.f.seed s.latch.f.len (length_bytesAt _ _ _), ← hw, ← hw0, ← hg']
    rfl
  · rw [operationX64_128, ht]
    rfl

end Sys2Proof.Machine
end

