-- ==== Sys2Proof/Laws/HashX64_128_x16.lean ====
section
/-! SUPPORT. What the operation of HASH_X64_128_X16 does, all of it: sixteen digests, each of its own lane's words, go to
memory, and only the vector registers and the block index change beside them; and a lane whose words the host has laid out by
45_hash_x64_128_x16.md R170 gives the scalar digest of its key. -/
namespace Sys2Proof.Machine

/-- Lane `l` of slot `j` as the machine reads it. -/
theorem slotWord_eq (m : Memory) (base l j : Nat) : slotWord m base l j = m.read64 (base + 64 * j + 8 * l) := by
  have h := read64_eq_keyWord (m := m) (addr := base + 64 * j + 8 * l) (len := 8) (i := 0) (by omega)
  rw [Nat.add_zero] at h
  rw [h, keyWord, slotWord, List.drop_zero, List.take_of_length_le (by simp)]

/-! ### One lane -/

/-- The pair of states of lane `l` after `n` blocks of a buffer at `base`, from block `i` on. -/
def foldLane (m : Memory) (base l : Nat) (h : Word64 × Word64) (i n : Nat) : Word64 × Word64 :=
  (List.range n).foldl (fun h j => block64 h (m.read64 (base + 64 * (2 * (i + j)) + 8 * l))
    (m.read64 (base + 64 * (2 * (i + j) + 1) + 8 * l))) h

theorem foldLane_succ (m : Memory) (base l : Nat) (h : Word64 × Word64) (i n : Nat) :
    foldLane m base l h i (n + 1) = foldLane m base l
      (block64 h (m.read64 (base + 64 * (2 * i) + 8 * l)) (m.read64 (base + 64 * (2 * i + 1) + 8 * l))) (i + 1) n := by
  simp only [foldLane, List.range_succ_eq_map, List.foldl_cons, List.foldl_map, Nat.add_zero, Nat.succ_eq_add_one]
  refine List.foldl_ext _ _ _ fun h' j _ => ?_
  rw [show i + (j + 1) = i + 1 + j by omega]

/-- A lane's states after the blocks, with the extra fold where it is made, finalized, are the lane's digest. -/
theorem digestLane_eq (seed len pendLen : Word32) (m : Memory) (base l : Nat) :
    digestLane seed len pendLen (slotWord m base l) = final64
      (if len < pendLen then
        tailFold64 (foldLane m base l (seed.setWidth 64, seed.setWidth 64) 0 (len.toNat / 16))
          (m.read64 (base + 64 * (2 * (len.toNat / 16)) + 8 * l)) (m.read64 (base + 64 * (2 * (len.toNat / 16) + 1) + 8 * l))
        else foldLane m base l (seed.setWidth 64, seed.setWidth 64) 0 (len.toNat / 16)) (len.setWidth 64) := by
  simp only [digestLane, final64_eq, tailFold64, mix1_64_eq, mix2_64_eq, slotWord_eq, foldLane, block64_eq, Nat.zero_add]

/-! ### The block loop -/

theorem blockX16_blockIx (s : State) : (blockX16 s).blockIx = s.blockIx + 1 := by simp only [blockX16, loadX16]

theorem blockX16_mem (s : State) : (blockX16 s).mem = s.mem := by simp only [blockX16, loadX16]

theorem blockX16_latch (s : State) : (blockX16 s).latch = s.latch := by simp only [blockX16, loadX16]

theorem VGroup.h_block_load (g : VGroup) (m : Memory) (base j : Nat) (l : Fin 8) :
    (g.load m base j).block.h l =
      block64 (g.h l) (m.read64 (base + 64 * j + 8 * l)) (m.read64 (base + 64 * (j + 1) + 8 * l)) := by
  simp only [VGroup.block, VGroup.h_withH, VGroup.h_load, VGroup.vk1_load, VGroup.vk2_load, Memory.slot_lane]

theorem VGroup.h_fold_load (g : VGroup) (m : Memory) (base j : Nat) (l : Fin 8) :
    (g.load m base j).fold.h l =
      tailFold64 (g.h l) (m.read64 (base + 64 * j + 8 * l)) (m.read64 (base + 64 * (j + 1) + 8 * l)) := by
  simp only [VGroup.fold, VGroup.h_withH, VGroup.h_load, VGroup.vk1_load, VGroup.vk2_load, Memory.slot_lane]

theorem blockX16_h0 (s : State) (l : Fin 8) : (blockX16 s).group0.h l = block64 (s.group0.h l)
    (s.mem.read64 (s.keyAddr + 64 * (2 * s.index) + 8 * l)) (s.mem.read64 (s.keyAddr + 64 * (2 * s.index + 1) + 8 * l)) := by
  simp only [blockX16, loadX16, VGroup.h_block_load]

theorem blockX16_h1 (s : State) (l : Fin 8) : (blockX16 s).group1.h l = block64 (s.group1.h l)
    (s.mem.read64 (s.keyAddr2 + 64 * (2 * s.index) + 8 * l)) (s.mem.read64 (s.keyAddr2 + 64 * (2 * s.index + 1) + 8 * l)) := by
  simp only [blockX16, loadX16, VGroup.h_block_load]

/-- The block loop: every lane's states are folded over the blocks, `I` has advanced, nothing else changes. -/
theorem blockLoop_x16 (n : Nat) (s : State) (h : s.index + n < 2 ^ 32) :
    ∃ g0 g1 : VGroup, (∀ l : Fin 8, g0.h l = foldLane s.mem s.keyAddr l (s.group0.h l) s.index n) ∧
      (∀ l : Fin 8, g1.h l = foldLane s.mem s.keyAddr2 l (s.group1.h l) s.index n) ∧
      blockLoop blockX16 n s = { s with group0 := g0, group1 := g1, blockIx := s.blockIx + BitVec.ofNat 32 n } := by
  induction n generalizing s with
  | zero => exact ⟨s.group0, s.group1, fun l => by simp [foldLane], fun l => by simp [foldLane], by simp [blockLoop]⟩
  | succ n ih =>
    have hi : (blockX16 s).index = s.index + 1 := by
      rw [State.index, blockX16_blockIx]
      exact toNat_add_one h
    have ha : (blockX16 s).keyAddr = s.keyAddr := by rw [State.keyAddr, blockX16_latch]
    have hb : (blockX16 s).keyAddr2 = s.keyAddr2 := by rw [State.keyAddr2, blockX16_latch]
    obtain ⟨g0, g1, h0, h1, hk⟩ := ih (blockX16 s) (by omega)
    refine ⟨g0, g1, fun l => ?_, fun l => ?_, ?_⟩
    · rw [h0, hi, ha, blockX16_mem, foldLane_succ, blockX16_h0]
    · rw [h1, hi, hb, blockX16_mem, foldLane_succ, blockX16_h1]
    · rw [blockLoop, hk]
      simp only [blockX16, loadX16, add_one_add_ofNat]

/-! ### The operation -/

/-- What the operation of HASH_X64_128_X16 does (45_hash_x64_128_x16.md R164 to R169). -/
theorem operationX16_eq (s : State) :
    ∃ g0 g1 : VGroup,
      (∀ l : Fin 8, g0.h l = digestLane s.latch.f.seed s.latch.f.len s.latch.f.pendLen (slotWord s.mem s.keyAddr l)) ∧
      (∀ l : Fin 8, g1.h l = digestLane s.latch.f.seed s.latch.f.len s.latch.f.pendLen (slotWord s.mem s.keyAddr2 l)) ∧
      operationX16 s = { s with
        group0 := g0
        group1 := g1
        blockIx := BitVec.ofNat 32 (nblocks s.latch.f 16)
        mem := s.mem.writeWords64 s.outAddr (g0.words ++ g1.words) } := by
  obtain ⟨g0, g1, h0, h1, hk⟩ := blockLoop_x16 (nblocks s.latch.f 16) (initX16 s) (nblocks_lt _)
  have h0' (l : Fin 8) : g0.h l = foldLane s.mem s.keyAddr l (s.seed64, s.seed64) 0 (s.len / 16) := by
    rw [h0 l]
    simp only [initX16, VGroup.seed, VGroup.h_withH]
    rfl
  have h1' (l : Fin 8) : g1.h l = foldLane s.mem s.keyAddr2 l (s.seed64, s.seed64) 0 (s.len / 16) := by
    rw [h1 l]
    simp only [initX16, VGroup.seed, VGroup.h_withH]
    rfl
  have hloop : blockLoop blockX16 (nblocks s.latch.f 16) (initX16 s) = { s with
      group0 := g0, group1 := g1, blockIx := BitVec.ofNat 32 (nblocks s.latch.f 16) } := by
    rw [hk]
    simp only [initX16, show ∀ x : Word32, 0 + x = x from BitVec.zero_add]
  by_cases he : s.latch.f.len < s.latch.f.pendLen
  · refine ⟨((g0.load s.mem s.keyAddr (2 * nblocks s.latch.f 16)).fold).final s.len64,
      ((g1.load s.mem s.keyAddr2 (2 * nblocks s.latch.f 16)).fold).final s.len64, fun l => ?_, fun l => ?_, ?_⟩
    · rw [digestLane_eq, if_pos he, ← h0' l, VGroup.final, VGroup.h_withH, VGroup.h_fold_load, nblocks]
    · rw [digestLane_eq, if_pos he, ← h1' l, VGroup.final, VGroup.h_withH, VGroup.h_fold_load, nblocks]
    · simp only [operationX16, hloop, extraX16, extraBlock, he, decide_true, if_true, loadX16, finalX16, emitX16]
  · refine ⟨g0.final s.len64, g1.final s.len64, fun l => ?_, fun l => ?_, ?_⟩
    · rw [digestLane_eq, if_neg he, ← h0' l, VGroup.final, VGroup.h_withH]
    · rw [digestLane_eq, if_neg he, ← h1' l, VGroup.final, VGroup.h_withH]
    · simp only [operationX16, hloop, extraX16, extraBlock, he, decide_false, Bool.false_eq_true, if_false, finalX16, emitX16]

/-! ### The host's contract -/

/-- A word inside the blocks of a key laid out in a lane is a word of the key (45_hash_x64_128_x16.md R163, R170). -/
theorem slotWord_eq_keyWord {m : Memory} {base l pendLen : Nat} {key : List Byte} (h : LaidOut m base l key pendLen)
    {j : Nat} (hj : 8 * j + 8 ≤ key.length ∨ (key.length < pendLen ∧ 8 * j + 8 ≤ 16 * (key.length / 16) + 16)) :
    slotWord m base l j = keyWord 64 key (8 * j) 8 := by
  rw [slotWord_eq, Memory.read64, memRead_eq_leSum, keyWord_eq_leSum]
  refine congrArg (BitVec.ofNat 64) (leSum_congr fun k hk => ?_)
  have ha : laneByteAddr base l (8 * j + k) = base + 64 * j + 8 * l + k := by
    rw [laneByteAddr, show (8 * j + k) / 8 = j by omega, show (8 * j + k) % 8 = k by omega]
  rcases Nat.lt_or_ge (8 * j + k) key.length with hlt | hge
  · rw [← ha, h.bytes _ hlt]
  · rw [← ha, h.padding (by omega) _ hge (by omega), List.getD_eq_default _ _ hge]

/-- A lane whose words the host has laid out gives the scalar digest of its key (45_hash_x64_128_x16.md R176). -/
theorem digestLane_eq_digestX64_128 {m : Memory} {base l : Nat} {key : List Byte} (seed : Word32) {len pendLen : Word32}
    (hk : key.length = len.toNat) (h : LaidOut m base l key pendLen.toNat) :
    digestLane seed len pendLen (slotWord m base l) = digestX64_128 seed key := by
  have hfold : (List.range (len.toNat / 16)).foldl
      (fun h i => blockStepX64_128 h (slotWord m base l (2 * i)) (slotWord m base l (2 * i + 1)))
      (seed.setWidth 64, seed.setWidth 64) = (List.range (len.toNat / 16)).foldl
      (fun h i => blockStepX64_128 h (keyWord 64 key (16 * i) 8) (keyWord 64 key (16 * i + 8) 8))
      (seed.setWidth 64, seed.setWidth 64) := by
    refine List.foldl_ext _ _ _ fun h' i hi => ?_
    have := List.mem_range.1 hi
    rw [slotWord_eq_keyWord h (by omega), slotWord_eq_keyWord h (by omega), show 8 * (2 * i) = 16 * i by omega,
      show 8 * (2 * i + 1) = 16 * i + 8 by omega]
  simp only [digestLane, digestX64_128, hk, hfold, BitVec.ofNat_toNat]
  generalize (List.range (len.toNat / 16)).foldl
      (fun h i => blockStepX64_128 h (keyWord 64 key (16 * i) 8) (keyWord 64 key (16 * i + 8) 8))
      (seed.setWidth 64, seed.setWidth 64) = g
  by_cases he : len < pendLen
  · have he' : key.length < pendLen.toNat := by rw [hk]; exact he
    rw [if_pos he, slotWord_eq_keyWord h (by omega), slotWord_eq_keyWord h (by omega),
      show 8 * (2 * (len.toNat / 16)) = 16 * (len.toNat / 16) by omega,
      show 8 * (2 * (len.toNat / 16) + 1) = 16 * (len.toNat / 16) + 8 by omega]
  · have ht : len.toNat % 16 = 0 := by
      by_contra hne
      have := h.tail (by rwa [hk])
      rw [hk] at this
      exact he this
    rw [if_neg he, keyWord_of_ge 64 8 (by omega), keyWord_of_ge 64 8 (by omega), mixWord_zero, mixWord_zero]
    simp only [show ∀ x : Word64, x ^^^ 0 = x from fun x => BitVec.xor_zero]

end Sys2Proof.Machine
end

