-- ==== Sys2Proof/Laws/HashX86_128.lean ====
section
/-! SUPPORT. What the operation of HASH_X86_128 does, all of it: the digest of the key's bytes goes to memory, and only the
unit's own registers and the block index change beside it. -/
namespace Sys2Proof.Machine

/-- The four states of the unit. -/
def X86_128Regs.h (g : X86_128Regs) : Word32 × Word32 × Word32 × Word32 := (g.h1, g.h2, g.h3, g.h4)

/-- Registers are their four states and four key words. -/
theorem X86_128Regs.eq_mk {g : X86_128Regs} {h : Word32 × Word32 × Word32 × Word32} (e : g.h = h) :
    g = ⟨h.1, h.2.1, h.2.2.1, h.2.2.2, g.k1, g.k2, g.k3, g.k4⟩ := by subst e; rfl

/-- The block step is the step of the digest function (43_hash_x86_128.md R124). -/
theorem foldX86_128_h (g : X86_128Regs) : (foldX86_128 g).h = blockStepX86_128 g.h g.k1 g.k2 g.k3 g.k4 := by
  simp only [foldX86_128, X86_128Regs.h, blockStepX86_128, rotl_eq_rotateLeft, mix1_128_eq, mix2_128_eq, mix3_128_eq,
    mix4_128_eq]
  rfl

/-- The tail fold: the conditions on `t` may be dropped where the words left out are zero (43_hash_x86_128.md R125). -/
theorem foldTailX86_128_eq {t : Nat} {g : X86_128Regs} (h4 : ¬13 ≤ t → g.k4 = 0) (h3 : ¬9 ≤ t → g.k3 = 0)
    (h2 : ¬5 ≤ t → g.k2 = 0) (h1 : ¬1 ≤ t → g.k1 = 0) :
    foldTailX86_128 t g = { g with
      h1 := g.h1 ^^^ mix1_128 g.k1, h2 := g.h2 ^^^ mix2_128 g.k2, h3 := g.h3 ^^^ mix3_128 g.k3,
      h4 := g.h4 ^^^ mix4_128 g.k4 } := by
  rw [fold_eq_ite g.h1 (by rw [mix1_128_eq, mixWord_zero]) h1, fold_eq_ite g.h2 (by rw [mix2_128_eq, mixWord_zero]) h2,
    fold_eq_ite g.h3 (by rw [mix3_128_eq, mixWord_zero]) h3, fold_eq_ite g.h4 (by rw [mix4_128_eq, mixWord_zero]) h4]
  unfold foldTailX86_128
  split_ifs <;> rfl

/-! ### The block loop -/

/-- The four states after `n` blocks of a key at `addr`, from block `i` on. -/
def foldBlocks128 (m : Memory) (addr : Nat) (h : Word32 × Word32 × Word32 × Word32) (i n : Nat) :
    Word32 × Word32 × Word32 × Word32 :=
  (List.range n).foldl (fun h j => blockStepX86_128 h (m.read32 (addr + 16 * (i + j))) (m.read32 (addr + 16 * (i + j) + 4))
    (m.read32 (addr + 16 * (i + j) + 8)) (m.read32 (addr + 16 * (i + j) + 12))) h

theorem foldBlocks128_succ (m : Memory) (addr : Nat) (h : Word32 × Word32 × Word32 × Word32) (i n : Nat) :
    foldBlocks128 m addr h i (n + 1) = foldBlocks128 m addr (blockStepX86_128 h (m.read32 (addr + 16 * i))
      (m.read32 (addr + 16 * i + 4)) (m.read32 (addr + 16 * i + 8)) (m.read32 (addr + 16 * i + 12))) (i + 1) n := by
  simp only [foldBlocks128, List.range_succ_eq_map, List.foldl_cons, List.foldl_map, Nat.add_zero, Nat.succ_eq_add_one]
  refine List.foldl_ext _ _ _ fun h' j _ => ?_
  rw [show i + (j + 1) = i + 1 + j by omega]

/-- The block loop: the four states are folded over the blocks, the key words hold some words, `I` has advanced. -/
theorem blockLoop_x86_128 (n : Nat) (s : State) (h : s.index + n < 2 ^ 32) :
    ∃ g : X86_128Regs, g.h = foldBlocks128 s.mem s.keyAddr s.x86_128.h s.index n ∧
      blockLoop blockX86_128 n s = { s with x86_128 := g, blockIx := s.blockIx + BitVec.ofNat 32 n } := by
  induction n generalizing s with
  | zero => exact ⟨s.x86_128, by simp [foldBlocks128], by simp [blockLoop]⟩
  | succ n ih =>
    have hi : (blockX86_128 s).index = s.index + 1 := toNat_add_one h
    obtain ⟨g, hg, hk⟩ := ih (blockX86_128 s) (by omega)
    refine ⟨g, ?_, ?_⟩
    · rw [hg, hi, foldBlocks128_succ]
      congr 1
    · rw [blockLoop, hk]
      simp only [blockX86_128, readBlockX86_128, add_one_add_ofNat]

/-- The blocks read from memory are the blocks of the key. -/
theorem foldBlocks128_eq_digest (m : Memory) (addr len : Nat) (h : Word32 × Word32 × Word32 × Word32) :
    foldBlocks128 m addr h 0 (len / 16) = (List.range (len / 16)).foldl
      (fun h i => blockStepX86_128 h (keyWord 32 (bytesAt m addr len) (16 * i) 4)
        (keyWord 32 (bytesAt m addr len) (16 * i + 4) 4) (keyWord 32 (bytesAt m addr len) (16 * i + 8) 4)
        (keyWord 32 (bytesAt m addr len) (16 * i + 12) 4)) h := by
  refine List.foldl_ext _ _ _ fun h' j hj => ?_
  have := List.mem_range.1 hj
  rw [Nat.zero_add, read32_eq_keyWord (len := len) (by omega), Nat.add_assoc, read32_eq_keyWord (len := len) (by omega),
    Nat.add_assoc, read32_eq_keyWord (len := len) (by omega), Nat.add_assoc, read32_eq_keyWord (len := len) (by omega)]

/-! ### The operation -/

/-- The finalization is the finalization of the digest function (43_hash_x86_128.md R126). -/
theorem finishX86_128_h (len : Word32) (g : X86_128Regs) :
    (finishX86_128 len g).h = (let h := crossAdd4 (g.h1 ^^^ len, g.h2 ^^^ len, g.h3 ^^^ len, g.h4 ^^^ len)
      crossAdd4 (avalanche32 h.1, avalanche32 h.2.1, avalanche32 h.2.2.1, avalanche32 h.2.2.2)) := rfl

/-- What the operation of HASH_X86_128 does (43_hash_x86_128.md R121 to R127). -/
theorem operationX86_128_eq (s : State) :
    ∃ g : X86_128Regs, g.h = digestX86_128 s.seed32 (bytesAt s.mem s.keyAddr s.len) ∧
      operationX86_128 s = { s with
        x86_128 := g
        blockIx := BitVec.ofNat 32 (nblocks s.latch.f 16)
        mem := (((s.mem.write32 s.outAddr g.h1).write32 (s.outAddr + 4) g.h2).write32 (s.outAddr + 8) g.h3).write32
          (s.outAddr + 12) g.h4 } := by
  obtain ⟨g, hg, hk⟩ := blockLoop_x86_128 (nblocks s.latch.f 16) (initX86_128 s) (nblocks_lt _)
  have hg' : g.h = foldBlocks128 s.mem s.keyAddr (s.seed32, s.seed32, s.seed32, s.seed32) 0 (s.len / 16) := hg
  rw [foldBlocks128_eq_digest] at hg'
  obtain ⟨word, hword⟩ : ∃ w : Nat → Word32, w = tailWord32 s.mem (tailAddr s.latch.f 16) (tailLen s.latch.f 16) := ⟨_, rfl⟩
  have hw (i : Nat) : word i = keyWord 32 (bytesAt s.mem s.keyAddr s.len) (16 * (s.len / 16) + i) 4 :=
    hword ▸ tailWord32_eq_keyWord s.mem s.keyAddr s.len 16 i
  have hz (j : Nat) (h : ¬j + 1 ≤ tailLen s.latch.f 16) : word j = 0 := hword ▸ tailWord32_of_le h
  let g1 : X86_128Regs := ⟨g.h1, g.h2, g.h3, g.h4, word 0, word 4, word 8, word 12⟩
  let g2 : X86_128Regs := ⟨g.h1 ^^^ mix1_128 (word 0), g.h2 ^^^ mix2_128 (word 4), g.h3 ^^^ mix3_128 (word 8),
    g.h4 ^^^ mix4_128 (word 12), word 0, word 4, word 8, word 12⟩
  have hf : foldTailX86_128 (tailLen s.latch.f 16) g1 = g2 :=
    foldTailX86_128_eq (hz 12) (hz 8) (hz 4) (hz 0)
  have ht : tailX86_128 (blockLoop blockX86_128 (nblocks s.latch.f 16) (initX86_128 s)) = { s with
      x86_128 := g2
      blockIx := BitVec.ofNat 32 (nblocks s.latch.f 16) } := by
    rw [tailX86_128, hk, ← hf]
    simp only [readTailX86_128, initX86_128, show ∀ x : Word32, 0 + x = x from BitVec.zero_add, ← hword, g1]
  refine ⟨finishX86_128 s.len32 g2, ?_, ?_⟩
  · have hw0 : word 0 = keyWord 32 (bytesAt s.mem s.keyAddr s.len) (16 * (s.len / 16)) 4 := hw 0
    have hlen : s.len32 = BitVec.ofNat 32 s.len := by rw [State.len, BitVec.ofNat_toNat, BitVec.setWidth_eq]
    rw [finishX86_128_h]
    simp only [digestX86_128, length_bytesAt, ← hg', ← hw0, ← hw, ← hlen, ← mix1_128_eq, ← mix2_128_eq, ← mix3_128_eq,
      ← mix4_128_eq]
    rfl
  · rw [operationX86_128, ht]
    rfl

end Sys2Proof.Machine
end

