-- ==== Sys2Proof/Laws/HashX86_32.lean ====
section
/-! SUPPORT. What the operation of HASH_X86_32 does, all of it: the digest of the key's bytes goes to memory, and only the
unit's own registers and the block index change beside it. -/
namespace Sys2Proof.Machine

/-! ### The block loop -/

/-- The state word after `n` blocks of a key at `addr`, from block `i` on. -/
def foldBlocks32 (m : Memory) (addr : Nat) (h : Word32) (i n : Nat) : Word32 :=
  (List.range n).foldl (fun h j => foldX86_32 h (mix32 (m.read32 (addr + 4 * (i + j))))) h

theorem foldBlocks32_succ (m : Memory) (addr : Nat) (h : Word32) (i n : Nat) :
    foldBlocks32 m addr h i (n + 1) = foldBlocks32 m addr (foldX86_32 h (mix32 (m.read32 (addr + 4 * i)))) (i + 1) n := by
  simp only [foldBlocks32, List.range_succ_eq_map, List.foldl_cons, List.foldl_map, Nat.add_zero, Nat.add_assoc,
    Nat.add_comm 1]

/-- The block loop: `H` is folded over the blocks, `K` holds some mixed word, `I` has advanced. -/
theorem blockLoop_x86_32 (n : Nat) (s : State) (h : s.index + n < 2 ^ 32) :
    ∃ k, blockLoop blockX86_32 n s = { s with
      x86_32 := ⟨foldBlocks32 s.mem s.keyAddr s.x86_32.h s.index n, k⟩
      blockIx := s.blockIx + BitVec.ofNat 32 n } := by
  induction n generalizing s with
  | zero => exact ⟨s.x86_32.k, by simp [blockLoop, foldBlocks32]⟩
  | succ n ih =>
    have hi : (blockX86_32 s).index = s.index + 1 := toNat_add_one h
    obtain ⟨k, hk⟩ := ih (blockX86_32 s) (by omega)
    refine ⟨k, ?_⟩
    rw [blockLoop, hk, hi, foldBlocks32_succ]
    simp only [blockX86_32, add_one_add_ofNat]

/-- The blocks read from memory are the blocks of the key. -/
theorem foldBlocks32_eq_digest (m : Memory) (addr len : Nat) (h : Word32) :
    foldBlocks32 m addr h 0 (len / 4) = (List.range (len / 4)).foldl
      (fun h i => 0xe6546b64 +
        5 * (h ^^^ mixWord 0xcc9e2d51 15 0x1b873593 (keyWord 32 (bytesAt m addr len) (4 * i) 4)).rotateLeft 13) h := by
  refine List.foldl_ext _ _ _ fun h' j hj => ?_
  have := List.mem_range.1 hj
  rw [Nat.zero_add, read32_eq_keyWord (len := len) (by omega), foldX86_32, rotl_eq_rotateLeft, mix32_eq]
  rfl

/-! ### The operation -/

/-- The tail fold: with no tail bytes the word folded is 0, which changes nothing (42_hash_x86_32.md R104: "because
`mix_32(0) = 0`, the condition `t >= 1` may be dropped"). -/
theorem tailX86_32_eq (s : State) :
    ∃ k, tailX86_32 s = { s with
      x86_32 := ⟨s.x86_32.h ^^^ mix32 (tailWord32 s.mem (tailAddr s.latch.f 4) (tailLen s.latch.f 4) 0), k⟩ } := by
  rw [tailX86_32]
  split
  · exact ⟨_, rfl⟩
  · rename_i ht
    have h0 : tailWord32 s.mem (tailAddr s.latch.f 4) (tailLen s.latch.f 4) 0 = 0 := by
      rw [show tailLen s.latch.f 4 = 0 by omega, tailWord32_eq, leSum_congr (h := fun _ => 0), leSum_zero]
      · rfl
      · intro k _
        rfl
    rw [h0, mix32_eq, mixWord_zero]
    exact ⟨0, by simp⟩

/-- The digest that the phases compute is the digest of the key's bytes (R103 to R105). -/
theorem fmix32_foldBlocks32_eq_digest (m : Memory) (addr : Nat) (seed len : Word32) :
    fmix32 (foldBlocks32 m addr seed 0 (len.toNat / 4) ^^^
      mix32 (tailWord32 m (addr + 4 * (len.toNat / 4)) (len.toNat % 4) 0) ^^^ len)
      = digestX86_32 seed (bytesAt m addr len.toNat) := by
  rw [tailWord32_eq_keyWord, foldBlocks32_eq_digest, mix32_eq, fmix32_eq, digestX86_32, length_bytesAt, Nat.add_zero,
    BitVec.ofNat_toNat, BitVec.setWidth_eq]

/-- What the operation of HASH_X86_32 does (42_hash_x86_32.md R101 to R106). -/
theorem operationX86_32_eq (s : State) :
    ∃ k, operationX86_32 s = { s with
      x86_32 := ⟨digestX86_32 s.seed32 (bytesAt s.mem s.keyAddr s.len), k⟩
      blockIx := BitVec.ofNat 32 (nblocks s.latch.f 4)
      mem := s.mem.write32 s.outAddr (digestX86_32 s.seed32 (bytesAt s.mem s.keyAddr s.len)) } := by
  obtain ⟨k, hk⟩ := blockLoop_x86_32 (nblocks s.latch.f 4) (initX86_32 s) (nblocks_lt _)
  obtain ⟨k', hk'⟩ := tailX86_32_eq (blockLoop blockX86_32 (nblocks s.latch.f 4) (initX86_32 s))
  refine ⟨k', ?_⟩
  rw [operationX86_32, hk', hk, ← fmix32_foldBlocks32_eq_digest]
  simp only [emitX86_32, finalX86_32, initX86_32, State.index, State.keyAddr, State.outAddr, State.len32,
    State.seed32, tailAddr, tailLen, nblocks, show (0 : Word32).toNat = 0 from rfl]
  rw [show ∀ x : Word32, 0 + x = x from BitVec.zero_add]

end Sys2Proof.Machine
end

