-- ==== Sys2Proof/Laws/Exec.lean ====
section
/-! SUPPORT. What a meaning does, said once: a command that fails a check answers its failure and changes nothing else; a
command that passes every check answers OK, with its result in `RES` or its digest in memory. -/
namespace Sys2Proof.Machine

/-! ### The verdict on a command -/

/-- Exactly one status is the verdict on a command (60_exceptions.md R193: "the first step that fails decides"). -/
theorem exists_verdict (i : Instr) (c : Config) : ∃ st, Verdict i c st := by
  by_cases h1 : i.wellFormed = true
  · by_cases hl : Leaf i
    · exact ⟨.ok, h1, .inl hl⟩
    · by_cases h2 : LengthsLegal i
      · by_cases h3 : RegionsFit c (readRegions i) (writeRegion i)
        · by_cases h4 : AllReadable c (readRegions i)
          · by_cases h5 : AllWritable c (writeRegion i)
            · exact ⟨.ok, h1, .inr ⟨h2, h3, h4, h5⟩⟩
            · exact ⟨.errWrite, h1, hl, h2, h3, h4, h5⟩
          · exact ⟨.errRead, h1, hl, h2, h3, h4⟩
        · exact ⟨.errAddr, h1, hl, h2, h3⟩
      · exact ⟨.errLen, h1, hl, h2⟩
  · exact ⟨.errIllegal, by simpa [Verdict] using h1⟩

/-- The verdict of the checks of a HASH command, as `checkCommand` computes it. -/
theorem checkCommand_eq_some {c : Config} {illegal long : Bool} {reads : List Region} {write : Region} {st : Status}
    (h : match st with
      | .ok => False
      | .errIllegal => illegal = true
      | .errLen => illegal = false ∧ long = true
      | .errAddr => illegal = false ∧ long = false ∧ ¬RegionsFit c reads write
      | .errRead => illegal = false ∧ long = false ∧ RegionsFit c reads write ∧ ¬AllReadable c reads
      | .errWrite => illegal = false ∧ long = false ∧ RegionsFit c reads write ∧ AllReadable c reads
          ∧ ¬AllWritable c write) :
    checkCommand c illegal long reads write = some st := by
  classical
  rw [checkCommand_eq]
  cases st <;> simp_all

theorem lenTooLong_eq_true {f : Fields} : lenTooLong f = true ↔ ¬f.len.toNat < 2 ^ 31 := by simp [lenTooLong]

theorem lenTooLong_eq_false {f : Fields} : lenTooLong f = false ↔ f.len.toNat < 2 ^ 31 := by simp [lenTooLong]

theorem pendLenTooLong_eq_true {f : Fields} : pendLenTooLong f = true ↔ ¬f.pendLen.toNat < 2 ^ 31 := by
  simp [pendLenTooLong]

theorem pendLenTooLong_eq_false {f : Fields} : pendLenTooLong f = false ↔ f.pendLen.toNat < 2 ^ 31 := by
  simp [pendLenTooLong]

theorem rotationGiven_eq (f : Fields) : rotationGiven f = !rotationUnused f := by
  rw [rotationGiven, rotationUnused, bne, beq_eq_decide]

/-! ### The leaf commands -/

theorem execRotl32_eq (f : Fields) (s : State) : execRotl32 f s = .next (if f.r.toNat < 32
    then (s.accept 0x1 f).respond .ok (resultOf (.rotl32 f)) else (s.accept 0x1 f).fail .errIllegal) := by
  by_cases h : f.r.toNat < 32
  · have h' : (s.accept 0x1 f).latch.f.r.toNat < 32 := h
    rw [if_pos h, execRotl32, dif_pos h', rotl_eq_rotateLeft]
    rfl
  · have h' : ¬(s.accept 0x1 f).latch.f.r.toNat < 32 := h
    rw [if_neg h, execRotl32, dif_neg h']

theorem execRotl64_eq (f : Fields) (s : State) :
    execRotl64 f s = .next ((s.accept 0x2 f).respond .ok (resultOf (.rotl64 f))) := by
  rw [execRotl64, rotl_eq_rotateLeft]
  rfl

theorem execFmix32_eq (f : Fields) (s : State) : execFmix32 f s = .next (if rotationUnused f
    then (s.accept 0x3 f).respond .ok (resultOf (.fmix32 f)) else (s.accept 0x3 f).fail .errIllegal) := by
  have hf : (s.accept 0x3 f).latch.f = f := rfl
  rw [execFmix32, hf, rotationGiven_eq]
  cases rotationUnused f <;> rfl

theorem execFmix64_eq (f : Fields) (s : State) : execFmix64 f s = .next (if rotationUnused f
    then (s.accept 0x4 f).respond .ok (resultOf (.fmix64 f)) else (s.accept 0x4 f).fail .errIllegal) := by
  have hf : (s.accept 0x4 f).latch.f = f := rfl
  rw [execFmix64, hf, rotationGiven_eq]
  cases rotationUnused f <;> rfl

/-! ### A command that fails -/

/-- A HASH command with a verdict other than OK answers it. -/
theorem hash_fails {op : BitVec 4} {f : Fields} {s : State} {st : Status} {illegal long : Bool} {reads : List Region}
    {write : Region} {operation : State → State} (h : checkCommand s.cfg illegal long reads write = some st) :
    (s.accept op f).runChecked (checkCommand (s.accept op f).cfg illegal long reads write) operation
      = (s.accept op f).fail st := by
  rw [State.accept_cfg, h]
  rfl

/-- A command whose verdict is not OK fails with it: the latches hold the command, `STATUS` the code and `RES` 0, and nothing
else has changed (60_exceptions.md R194, R195). -/
theorem exec_of_verdict_ne_ok {i : Instr} {s : State} {st : Status} (h : Verdict i s.cfg st) (hne : st ≠ .ok) :
    exec i s = .next ((s.accept i.op i.fields).fail st) := by
  cases i with
  | rotl32 f =>
    cases st <;> simp_all [Verdict, Leaf]
    rw [exec, execRotl32_eq, if_neg (by simpa [Instr.wellFormed, rotationFits32] using h)]
    rfl
  | rotl64 f => cases st <;> simp_all [Verdict, Leaf, Instr.wellFormed]
  | fmix32 f =>
    cases st <;> simp_all [Verdict, Leaf]
    rw [exec, execFmix32_eq, if_neg (by simpa [Instr.wellFormed] using h)]
    rfl
  | fmix64 f =>
    cases st <;> simp_all [Verdict, Leaf]
    rw [exec, execFmix64_eq, if_neg (by simpa [Instr.wellFormed] using h)]
    rfl
  | hashX86_32 f =>
    refine congrArg Host.Outcome.next (hash_fails (checkCommand_eq_some ?_))
    cases st <;> simp_all [Verdict, Leaf, Instr.wellFormed, rotationGiven_eq, LengthsLegal, lenTooLong_eq_true,
      lenTooLong_eq_false, readRegions, writeRegion]
  | hashX86_128 f =>
    refine congrArg Host.Outcome.next (hash_fails (checkCommand_eq_some ?_))
    cases st <;> simp_all [Verdict, Leaf, Instr.wellFormed, rotationGiven_eq, LengthsLegal, lenTooLong_eq_true,
      lenTooLong_eq_false, readRegions, writeRegion]
  | hashX64_128 f =>
    refine congrArg Host.Outcome.next (hash_fails (checkCommand_eq_some ?_))
    cases st <;> simp_all [Verdict, Leaf, Instr.wellFormed, rotationGiven_eq, LengthsLegal, lenTooLong_eq_true,
      lenTooLong_eq_false, readRegions, writeRegion]
  | hashX64_128_x16 f =>
    refine congrArg Host.Outcome.next (hash_fails (checkCommand_eq_some ?_))
    cases st <;> simp_all [Verdict, Leaf, Instr.wellFormed, rotationGiven_eq, LengthsLegal, lenTooLong_eq_true,
      lenTooLong_eq_false, pendLenTooLong_eq_true, pendLenTooLong_eq_false, readRegions, writeRegion]
    omega

/-! ### A HASH command that passes every check -/

/-- HASH_X86_32 (42_hash_x86_32.md R107). -/
theorem execHashX86_32_ok {f : Fields} {s : State} (h : Executes (.hashX86_32 f) s.cfg) :
    ∃ k, execHashX86_32 f s = .next { s with
      latch := ⟨0x5, f⟩
      x86_32 := ⟨digestX86_32 f.seed (bytesAt s.mem f.a.toNat f.len.toNat), k⟩
      blockIx := BitVec.ofNat 32 (nblocks f 4)
      mem := s.mem.write32 f.out.toNat (digestX86_32 f.seed (bytesAt s.mem f.a.toNat f.len.toNat))
      status := 0
      res := 0 } := by
  have hc : checkCommand s.cfg (rotationGiven f) (lenTooLong f) [keyRegion f] (outRegion f 4) = none := by
    rw [checkCommand_eq_none, rotationGiven_eq]
    simpa [Executes, Leaf, Instr.wellFormed, LengthsLegal, readRegions, writeRegion, lenTooLong] using h
  obtain ⟨k, hk⟩ := operationX86_32_eq (s.accept 0x5 f)
  refine ⟨k, ?_⟩
  have e : execHashX86_32 f s = .next ((s.accept 0x5 f).runChecked
    (checkCommand s.cfg (rotationGiven f) (lenTooLong f) [keyRegion f] (outRegion f 4)) operationX86_32) := rfl
  rw [e, hc, State.runChecked_none, hk]
  simp only [State.respond, State.accept, Status.code, State.outAddr, State.keyAddr, State.len, State.seed32]

/-- HASH_X86_128 (43_hash_x86_128.md R128). -/
theorem execHashX86_128_ok {f : Fields} {s : State} (h : Executes (.hashX86_128 f) s.cfg) :
    ∃ g : X86_128Regs, g.h = digestX86_128 f.seed (bytesAt s.mem f.a.toNat f.len.toNat) ∧
      execHashX86_128 f s = .next { s with
        latch := ⟨0x6, f⟩
        x86_128 := g
        blockIx := BitVec.ofNat 32 (nblocks f 16)
        mem := (((s.mem.write32 f.out.toNat g.h1).write32 (f.out.toNat + 4) g.h2).write32 (f.out.toNat + 8) g.h3).write32
          (f.out.toNat + 12) g.h4
        status := 0
        res := 0 } := by
  have hc : checkCommand s.cfg (rotationGiven f) (lenTooLong f) [keyRegion f] (outRegion f 16) = none := by
    rw [checkCommand_eq_none, rotationGiven_eq]
    simpa [Executes, Leaf, Instr.wellFormed, LengthsLegal, readRegions, writeRegion, lenTooLong] using h
  obtain ⟨g, hg, hk⟩ := operationX86_128_eq (s.accept 0x6 f)
  refine ⟨g, hg, ?_⟩
  have e : execHashX86_128 f s = .next ((s.accept 0x6 f).runChecked
    (checkCommand s.cfg (rotationGiven f) (lenTooLong f) [keyRegion f] (outRegion f 16)) operationX86_128) := rfl
  rw [e, hc, State.runChecked_none, hk]
  simp only [State.respond, State.accept, Status.code, State.outAddr]

/-- HASH_X64_128 (44_hash_x64_128.md R148). -/
theorem execHashX64_128_ok {f : Fields} {s : State} (h : Executes (.hashX64_128 f) s.cfg) :
    ∃ g : X64_128Regs, g.h = digestX64_128 f.seed (bytesAt s.mem f.a.toNat f.len.toNat) ∧
      execHashX64_128 f s = .next { s with
        latch := ⟨0x7, f⟩
        x64_128 := g
        blockIx := BitVec.ofNat 32 (nblocks f 16)
        mem := (s.mem.write64 f.out.toNat g.h1).write64 (f.out.toNat + 8) g.h2
        status := 0
        res := 0 } := by
  have hc : checkCommand s.cfg (rotationGiven f) (lenTooLong f) [keyRegion f] (outRegion f 16) = none := by
    rw [checkCommand_eq_none, rotationGiven_eq]
    simpa [Executes, Leaf, Instr.wellFormed, LengthsLegal, readRegions, writeRegion, lenTooLong] using h
  obtain ⟨g, hg, hk⟩ := operationX64_128_eq (s.accept 0x7 f)
  refine ⟨g, hg, ?_⟩
  have e : execHashX64_128 f s = .next ((s.accept 0x7 f).runChecked
    (checkCommand s.cfg (rotationGiven f) (lenTooLong f) [keyRegion f] (outRegion f 16)) operationX64_128) := rfl
  rw [e, hc, State.runChecked_none, hk]
  simp only [State.respond, State.accept, Status.code, State.outAddr]

/-- HASH_X64_128_X16 (45_hash_x64_128_x16.md R171). -/
theorem execHashX64_128_x16_ok {f : Fields} {s : State} (h : Executes (.hashX64_128_x16 f) s.cfg) :
    ∃ g0 g1 : VGroup, (∀ l : Fin 8, g0.h l = digestLane f.seed f.len f.pendLen (slotWord s.mem f.a.toNat l)) ∧
      (∀ l : Fin 8, g1.h l = digestLane f.seed f.len f.pendLen (slotWord s.mem f.b.toNat l)) ∧
      execHashX64_128_x16 f s = .next { s with
        latch := ⟨0x8, f⟩
        group0 := g0
        group1 := g1
        blockIx := BitVec.ofNat 32 (nblocks f 16)
        mem := s.mem.writeWords64 f.out.toNat (g0.words ++ g1.words)
        status := 0
        res := 0 } := by
  have hc : checkCommand s.cfg (rotationGiven f) (lenTooLong f || pendLenTooLong f) (slotRegions f) (outRegion f 256)
      = none := by
    rw [checkCommand_eq_none, rotationGiven_eq]
    simpa [Executes, Leaf, Instr.wellFormed, LengthsLegal, readRegions, writeRegion, lenTooLong, pendLenTooLong,
      Bool.or_eq_false_iff] using h
  obtain ⟨g0, g1, h0, h1, hk⟩ := operationX16_eq (s.accept 0x8 f)
  refine ⟨g0, g1, h0, h1, ?_⟩
  have e : execHashX64_128_x16 f s = .next ((s.accept 0x8 f).runChecked (checkCommand s.cfg (rotationGiven f)
    (lenTooLong f || pendLenTooLong f) (slotRegions f) (outRegion f 256)) operationX16) := rfl
  rw [e, hc, State.runChecked_none, hk]
  simp only [State.respond, State.accept, Status.code, State.outAddr]

/-! ### All eight commands at once -/

/-- The bytes that a command leaves in its write region. -/
def digestBytes (m : Memory) : Instr → List Byte
  | .rotl32 _ | .rotl64 _ | .fmix32 _ | .fmix64 _ => []
  | .hashX86_32 f => wordBytes 4 (digestX86_32 f.seed (bytesAt m f.a.toNat f.len.toNat))
  | .hashX86_128 f => quadBytes (digestX86_128 f.seed (bytesAt m f.a.toNat f.len.toNat))
  | .hashX64_128 f => pairBytes (digestX64_128 f.seed (bytesAt m f.a.toNat f.len.toNat))
  | .hashX64_128_x16 f => (List.range 16).flatMap fun n => pairBytes (batchDigest m f n)

/-- The words that the batch unit emits are its sixteen digests in order (45_hash_x64_128_x16.md R169). -/
theorem words_append_eq_digests {m : Memory} {f : Fields} {g0 g1 : VGroup}
    (h0 : ∀ l : Fin 8, g0.h l = digestLane f.seed f.len f.pendLen (slotWord m f.a.toNat l))
    (h1 : ∀ l : Fin 8, g1.h l = digestLane f.seed f.len f.pendLen (slotWord m f.b.toNat l)) :
    (g0.words ++ g1.words).flatMap (wordBytes 8) = (List.range 16).flatMap fun n => pairBytes (batchDigest m f n) := by
  have hw (g : VGroup) : g.words.flatMap (wordBytes 8) = (List.finRange 8).flatMap fun l => pairBytes (g.h l) := by
    rw [show List.finRange 8 = [0, 1, 2, 3, 4, 5, 6, 7] by decide]
    simp only [VGroup.words, List.flatMap_cons, List.flatMap_nil, pairBytes, VGroup.h, List.append_assoc]
    rfl
  rw [List.flatMap_append, hw, hw]
  have e : List.range 16 = (List.finRange 8).map (fun l => l.val) ++ (List.finRange 8).map (fun l => 8 + l.val) := by decide
  rw [e, List.flatMap_append, List.flatMap_map, List.flatMap_map]
  congr 1
  · exact congrArg (List.flatMap · _) (funext fun l => by rw [h0, batchDigest, if_pos l.isLt, Nat.mod_eq_of_lt l.isLt])
  · exact congrArg (List.flatMap · _) (funext fun l => by
      rw [h1, batchDigest, if_neg (by omega), Nat.add_mod_left, Nat.mod_eq_of_lt l.isLt])

/-- What a command that passes every check has done when it ends in state `t`; where the memory was in canonical form, it
still is, and the digest is found again in it. -/
structure Effect (i : Instr) (s t : State) : Prop where
  latch     : t.latch = ⟨i.op, i.fields⟩
  status    : t.status = Status.ok.code
  res       : t.res = resultOf i
  digest    : s.mem.wf = true → bytesAt t.mem (writeRegion i).base (writeRegion i).size = digestBytes s.mem i
  outside   : ∀ a, ¬Within (writeRegion i) a → t.mem.read a = s.mem.read a
  wf        : s.mem.wf = true → t.mem.wf = true
  inside    : ∀ n, (writeRegion i).size = 0 ∨ (writeRegion i).base + (writeRegion i).size ≤ n → s.mem.within n = true →
    t.mem.within n = true
  cfg       : t.cfg = s.cfg
  inputs    : t.inputs = s.inputs
  responses : t.responses = s.responses
  draws     : t.draws = s.draws

theorem leaf_effect {i : Instr} {s : State} (hl : Leaf i) :
    Effect i s ((s.accept i.op i.fields).respond .ok (resultOf i)) := by
  constructor <;> cases i <;> simp_all [Leaf, writeRegion, outRegion, digestBytes, bytesAt]

/-- The effect of a HASH command is known once its memory is: its digest's bytes are written and nothing else. -/
theorem hash_effect {i : Instr} {s t : State} {base n : Nat} {m : Memory} {d : List Byte} (hm : t.mem = m) (hi : ¬Leaf i)
    (hr : writeRegion i = ⟨base, n⟩) (hn : 0 < n) (hd : digestBytes s.mem i = d)
    (hb : s.mem.wf = true → m.wf = true ∧ bytesAt m base n = d)
    (ho : ∀ a, a < base ∨ base + n ≤ a → m.read a = s.mem.read a)
    (hin : ∀ lim, base + n ≤ lim → s.mem.within lim = true → m.within lim = true)
    (hl : t.latch = ⟨i.op, i.fields⟩) (hs : t.status = 0) (hres : t.res = 0) (hc : t.cfg = s.cfg) (hq : t.inputs = s.inputs)
    (hp : t.responses = s.responses) (hf : t.draws = s.draws) : Effect i s t where
  latch := hl
  status := hs
  res := by rw [hres]; cases i <;> simp_all [Leaf, resultOf]
  digest := fun hw => by rw [hm, hr, hd, (hb hw).2]
  outside := fun a ha => by
    rw [hr] at ha
    have ha' : ¬(base ≤ a ∧ a < base + n) := ha
    rw [hm, ho a (by omega)]
  wf := fun hw => by rw [hm, (hb hw).1]
  inside := fun lim hlim hs => by
    rw [hr] at hlim
    rw [hm, hin lim (hlim.resolve_left (Nat.ne_of_gt hn)) hs]
  cfg := hc
  inputs := hq
  responses := hp
  draws := hf

theorem execHashX86_32_effect {f : Fields} {s : State} (h : Executes (.hashX86_32 f) s.cfg) :
    ∃ t, execHashX86_32 f s = .next t ∧ Effect (.hashX86_32 f) s t := by
  obtain ⟨k, hk⟩ := execHashX86_32_ok h
  refine ⟨_, hk, ?_⟩
  refine hash_effect rfl id rfl (by decide) rfl (fun hm => ⟨Memory.wf_write32 f.out.toNat _ hm, bytesAt_write32 f.out.toNat _ hm⟩)
    (fun a ha => Memory.read_write32_outside _ ha) (fun lim hlim hs => Memory.within_write32 _ hs hlim) ?_ ?_ ?_ ?_ ?_ ?_ ?_
    <;> rfl

theorem execHashX86_128_effect {f : Fields} {s : State} (h : Executes (.hashX86_128 f) s.cfg) :
    ∃ t, execHashX86_128 f s = .next t ∧ Effect (.hashX86_128 f) s t := by
  obtain ⟨g, hg, hk⟩ := execHashX86_128_ok h
  have hb (hm : s.mem.wf = true) : ((((s.mem.write32 f.out.toNat g.h1).write32 (f.out.toNat + 4) g.h2).write32
      (f.out.toNat + 8) g.h3).write32 (f.out.toNat + 12) g.h4).wf = true ∧
      bytesAt ((((s.mem.write32 f.out.toNat g.h1).write32 (f.out.toNat + 4) g.h2).write32 (f.out.toNat + 8) g.h3).write32
        (f.out.toNat + 12) g.h4) f.out.toNat 16 = quadBytes (digestX86_128 f.seed (bytesAt s.mem f.a.toNat f.len.toNat)) := by
    have h1 := Memory.wf_write32 f.out.toNat g.h1 hm
    have h2 := Memory.wf_write32 (f.out.toNat + 4) g.h2 h1
    have h3 := Memory.wf_write32 (f.out.toNat + 8) g.h3 h2
    have hd := bytesAt_write32_four f.out.toNat g.h1 g.h2 g.h3 g.h4 hm
    have hg' : (g.h1, g.h2, g.h3, g.h4) = digestX86_128 f.seed (bytesAt s.mem f.a.toNat f.len.toNat) := hg
    rw [hg'] at hd
    exact ⟨Memory.wf_write32 (f.out.toNat + 12) g.h4 h3, hd⟩
  have ho (a : Nat) (ha : a < f.out.toNat ∨ f.out.toNat + 16 ≤ a) : ((((s.mem.write32 f.out.toNat g.h1).write32
      (f.out.toNat + 4) g.h2).write32 (f.out.toNat + 8) g.h3).write32 (f.out.toNat + 12) g.h4).read a = s.mem.read a := by
    rw [Memory.read_write32_outside _ (by omega), Memory.read_write32_outside _ (by omega),
      Memory.read_write32_outside _ (by omega), Memory.read_write32_outside _ (by omega)]
  have hin (lim : Nat) (hlim : f.out.toNat + 16 ≤ lim) (hs : s.mem.within lim = true) : ((((s.mem.write32 f.out.toNat
      g.h1).write32 (f.out.toNat + 4) g.h2).write32 (f.out.toNat + 8) g.h3).write32 (f.out.toNat + 12) g.h4).within lim
      = true := by
    have i1 := Memory.within_write32 (a := f.out.toNat) g.h1 hs (by omega)
    have i2 := Memory.within_write32 (a := f.out.toNat + 4) g.h2 i1 (by omega)
    have i3 := Memory.within_write32 (a := f.out.toNat + 8) g.h3 i2 (by omega)
    exact Memory.within_write32 (a := f.out.toNat + 12) g.h4 i3 (by omega)
  generalize (((s.mem.write32 f.out.toNat g.h1).write32 (f.out.toNat + 4) g.h2).write32 (f.out.toNat + 8) g.h3).write32
    (f.out.toNat + 12) g.h4 = m at *
  refine ⟨_, hk, hash_effect (m := m) (base := f.out.toNat) (n := 16) rfl id rfl (by decide) (by rw [digestBytes]) hb ho hin
    rfl rfl rfl rfl rfl rfl rfl⟩

theorem execHashX64_128_effect {f : Fields} {s : State} (h : Executes (.hashX64_128 f) s.cfg) :
    ∃ t, execHashX64_128 f s = .next t ∧ Effect (.hashX64_128 f) s t := by
  obtain ⟨g, hg, hk⟩ := execHashX64_128_ok h
  have hb (hm : s.mem.wf = true) : ((s.mem.write64 f.out.toNat g.h1).write64 (f.out.toNat + 8) g.h2).wf = true ∧
      bytesAt ((s.mem.write64 f.out.toNat g.h1).write64 (f.out.toNat + 8) g.h2) f.out.toNat 16
        = pairBytes (digestX64_128 f.seed (bytesAt s.mem f.a.toNat f.len.toNat)) := by
    have hd := bytesAt_write64_two f.out.toNat g.h1 g.h2 hm
    have hg' : (g.h1, g.h2) = digestX64_128 f.seed (bytesAt s.mem f.a.toNat f.len.toNat) := hg
    rw [hg'] at hd
    exact ⟨Memory.wf_write64 (f.out.toNat + 8) g.h2 (Memory.wf_write64 f.out.toNat g.h1 hm), hd⟩
  have ho (a : Nat) (ha : a < f.out.toNat ∨ f.out.toNat + 16 ≤ a) :
      ((s.mem.write64 f.out.toNat g.h1).write64 (f.out.toNat + 8) g.h2).read a = s.mem.read a := by
    rw [Memory.read_write64_outside _ (by omega), Memory.read_write64_outside _ (by omega)]
  have hin (lim : Nat) (hlim : f.out.toNat + 16 ≤ lim) (hs : s.mem.within lim = true) :
      ((s.mem.write64 f.out.toNat g.h1).write64 (f.out.toNat + 8) g.h2).within lim = true := by
    have i1 := Memory.within_write64 (a := f.out.toNat) g.h1 hs (by omega)
    exact Memory.within_write64 (a := f.out.toNat + 8) g.h2 i1 (by omega)
  generalize (s.mem.write64 f.out.toNat g.h1).write64 (f.out.toNat + 8) g.h2 = m at *
  refine ⟨_, hk, hash_effect (m := m) (base := f.out.toNat) (n := 16) rfl id rfl (by decide) (by rw [digestBytes]) hb ho hin
    rfl rfl rfl rfl rfl rfl rfl⟩

theorem execHashX64_128_x16_effect {f : Fields} {s : State} (h : Executes (.hashX64_128_x16 f) s.cfg) :
    ∃ t, execHashX64_128_x16 f s = .next t ∧ Effect (.hashX64_128_x16 f) s t := by
  obtain ⟨g0, g1, h0, h1, hk⟩ := execHashX64_128_x16_ok h
  have hlen : (g0.words ++ g1.words).length = 32 := rfl
  have hb (hm : s.mem.wf = true) : (s.mem.writeWords64 f.out.toNat (g0.words ++ g1.words)).wf = true ∧
      bytesAt (s.mem.writeWords64 f.out.toNat (g0.words ++ g1.words)) f.out.toNat 256
        = (List.range 16).flatMap fun n => pairBytes (batchDigest s.mem f n) := by
    have hd := bytesAt_writeWords64 f.out.toNat (g0.words ++ g1.words) hm
    rw [words_append_eq_digests h0 h1, hlen] at hd
    exact ⟨Memory.wf_writeWords64 _ _ hm, hd⟩
  generalize g0.words ++ g1.words = ws at hb hlen hk
  refine ⟨_, hk, ?_⟩
  refine hash_effect rfl id rfl (by decide) rfl hb (fun a ha => Memory.read_writeWords64_outside _ (by omega))
    (fun lim hlim hs => Memory.within_writeWords64 _ hs (by omega)) ?_ ?_ ?_ ?_ ?_ ?_ ?_ <;>
    rfl

/-- A command that passes every check answers OK and has its effect (60_exceptions.md R193, step 6). -/
theorem exec_effect {i : Instr} {s : State} (h : Executes i s.cfg) : ∃ t, exec i s = .next t ∧ Effect i s t := by
  cases i with
  | rotl32 f =>
    have hr : f.r.toNat < 32 := by simpa [Executes, Leaf, Instr.wellFormed, rotationFits32] using h
    exact ⟨_, by rw [exec, execRotl32_eq, if_pos hr]; rfl, leaf_effect trivial⟩
  | rotl64 f => exact ⟨_, execRotl64_eq f s, leaf_effect trivial⟩
  | fmix32 f =>
    have hr : rotationUnused f = true := by simpa [Executes, Leaf, Instr.wellFormed] using h
    exact ⟨_, by rw [exec, execFmix32_eq, if_pos hr]; rfl, leaf_effect trivial⟩
  | fmix64 f =>
    have hr : rotationUnused f = true := by simpa [Executes, Leaf, Instr.wellFormed] using h
    exact ⟨_, by rw [exec, execFmix64_eq, if_pos hr]; rfl, leaf_effect trivial⟩
  | hashX86_32 f => exact execHashX86_32_effect h
  | hashX86_128 f => exact execHashX86_128_effect h
  | hashX64_128 f => exact execHashX64_128_effect h
  | hashX64_128_x16 f => exact execHashX64_128_x16_effect h

end Sys2Proof.Machine
end

