-- ==== Sys2Proof/Laws/PerInstr.lean ====
section
/-! SUPPORT. The families of statements about every command as syntax, one lemma per constructor. -/
namespace Sys2Proof.Laws

/-! ### FieldsKept: the packet of a command carries its opcode, zero reserved bits and every operand field -/

/-- No field of the command is lost or moved in its packet (30_encoding.md R60). -/
def FieldsKept.Statement (i : Instr) : Prop :=
  (encode i).op = i.op ∧ (encode i).reserved = 0 ∧ (encode i).fields = i.fields

theorem FieldsKept.rotl32 (f : Fields) : FieldsKept.Statement (.rotl32 f) := append_eq_encode rfl

theorem FieldsKept.rotl64 (f : Fields) : FieldsKept.Statement (.rotl64 f) := append_eq_encode rfl

theorem FieldsKept.fmix32 (f : Fields) : FieldsKept.Statement (.fmix32 f) := append_eq_encode rfl

theorem FieldsKept.fmix64 (f : Fields) : FieldsKept.Statement (.fmix64 f) := append_eq_encode rfl

theorem FieldsKept.hashX86_32 (f : Fields) : FieldsKept.Statement (.hashX86_32 f) := append_eq_encode rfl

theorem FieldsKept.hashX86_128 (f : Fields) : FieldsKept.Statement (.hashX86_128 f) := append_eq_encode rfl

theorem FieldsKept.hashX64_128 (f : Fields) : FieldsKept.Statement (.hashX64_128 f) := append_eq_encode rfl

theorem FieldsKept.hashX64_128_x16 (f : Fields) : FieldsKept.Statement (.hashX64_128_x16 f) := append_eq_encode rfl

end Sys2Proof.Laws
end

