-- ==== Sys2Proof/Laws/Step.lean ====
section
/-! SUPPORT. What a command packet does from acceptance to response, said once, and what each kind of input does in one step. -/
namespace Sys2Proof.Machine

/-! ### One command -/

/-- A command fails with its verdict and changes nothing, or executes and has its effect. -/
theorem exec_cases (i : Instr) (s : State) :
    ∃ t, exec i s = .next t ∧
      ((∃ st, Verdict i s.cfg st ∧ st ≠ .ok ∧ t = (s.accept i.op i.fields).fail st) ∨
        (Executes i s.cfg ∧ Effect i s t)) := by
  obtain ⟨st, h⟩ := exists_verdict i s.cfg
  by_cases hne : st = .ok
  · subst hne
    obtain ⟨t, ht, he⟩ := exec_effect h
    exact ⟨t, ht, .inr ⟨h, he⟩⟩
  · exact ⟨_, exec_of_verdict_ne_ok h hne, .inl ⟨st, h, hne, rfl⟩⟩

/-! ### One packet -/

theorem runPacket_of_ok {p : Packet} {i : Instr} (h : decode p = .ok i) (s : State) : runPacket p s = exec i s := by
  rw [runPacket, h]

theorem runPacket_of_error {p : Packet} {e : Illegal} (h : decode p = .error e) (s : State) :
    runPacket p s = .next (rejectPacket p s) := by
  rw [runPacket, h]

theorem packetWrites_of_ok {p : Packet} {i : Instr} (h : decode p = .ok i) : packetWrites p = writeRegion i := by
  rw [packetWrites, h]

theorem packetReads_of_ok {p : Packet} {i : Instr} (h : decode p = .ok i) : packetReads p = readRegions i := by
  rw [packetReads, h]

/-- A packet fails and changes nothing but the latches and the response registers, or it is a command that executes and has
its effect. -/
theorem runPacket_cases (p : Packet) (s : State) :
    ∃ t, runPacket p s = .next t ∧
      ((∃ st, st ≠ .ok ∧ t = (s.accept t.latch.op t.latch.f).fail st) ∨
        ∃ i, decode p = .ok i ∧ Executes i s.cfg ∧ Effect i s t) := by
  cases h : decode p with
  | error e =>
    exact ⟨_, runPacket_of_error h s, .inl ⟨.errIllegal, by decide, rfl⟩⟩
  | ok i =>
    obtain ⟨t, ht, hc⟩ := exec_cases i s
    refine ⟨t, (runPacket_of_ok h s).trans ht, ?_⟩
    rcases hc with ⟨st, -, hne, rfl⟩ | ⟨hx, he⟩
    · exact .inl ⟨st, hne, rfl⟩
    · exact .inr ⟨i, rfl, hx, he⟩

/-- A write region that passes step 3 of the checks ends inside the address space. -/
theorem Executes.write_fits {i : Instr} {c : Config} (h : Executes i c) :
    (writeRegion i).size = 0 ∨ (writeRegion i).base + (writeRegion i).size ≤ 2 ^ c.aw := by
  rcases h.2 with hl | h
  · left; cases i <;> simp_all [Leaf, writeRegion, outRegion]
  · exact .inr h.2.1.2.2

/-- No other status has the code of `OK`. -/
theorem Status.code_ne_ok {st : Status} (h : st ≠ .ok) : st.code ≠ Status.ok.code := by
  cases st <;> first | exact absurd rfl h | decide

/-- Whether a packet fails, and with what, depends on the platform's parameters alone: either it fails so from every state with
these parameters, or it is a command that executes. -/
theorem runPacket_of_cfg (p : Packet) (c : Config) :
    (∃ st, st ≠ .ok ∧ ∀ s : State, s.cfg = c → runPacket p s = .next ((s.accept p.op p.fields).fail st)) ∨
    (∃ i, decode p = .ok i ∧ Executes i c) := by
  cases h : decode p with
  | error e => exact .inl ⟨.errIllegal, by decide, fun s _ => runPacket_of_error h s⟩
  | ok i =>
    obtain ⟨-, h1, h2, -⟩ := decode_eq_ok.1 h
    obtain ⟨st, hv⟩ := exists_verdict i c
    by_cases hne : st = .ok
    · subst hne; exact .inr ⟨i, rfl, hv⟩
    · refine .inl ⟨st, hne, fun s hs => ?_⟩
      rw [runPacket_of_ok h, exec_of_verdict_ne_ok (hs ▸ hv) hne, h1, h2]

/-- What every packet keeps: the parameters, both ports, the form and the extent of memory, every byte outside its write region,
and all of memory where it fails. -/
theorem runPacket_frame (p : Packet) (s : State) : ∃ t, runPacket p s = .next t ∧ t.cfg = s.cfg ∧ t.inputs = s.inputs ∧
    t.responses = s.responses ∧ (s.mem.wf = true → t.mem.wf = true) ∧
    (∀ a, ¬Within (packetWrites p) a → t.mem.read a = s.mem.read a) ∧ (t.status ≠ Status.ok.code → t.mem = s.mem) ∧
    (s.mem.within (2 ^ s.cfg.aw) = true → t.mem.within (2 ^ s.cfg.aw) = true) := by
  rcases runPacket_of_cfg p s.cfg with ⟨st, hne, h⟩ | ⟨i, hi, hx⟩
  · exact ⟨_, h s rfl, rfl, rfl, rfl, id, fun _ _ => rfl, fun _ => rfl, id⟩
  · obtain ⟨t, ht, he⟩ := exec_effect hx
    exact ⟨t, (runPacket_of_ok hi s).trans ht, he.cfg, he.inputs, he.responses, he.wf,
      fun a ha => he.outside a (packetWrites_of_ok hi ▸ ha), fun e => absurd he.status e, he.inside _ hx.write_fits⟩

/-! ### What the result depends on -/

/-- The bytes a command writes depend on memory only through its read regions (20_memory.md R44). -/
theorem digestBytes_congr {i : Instr} {m m' : Memory} (h : AgreeOn (readRegions i) m m') :
    digestBytes m i = digestBytes m' i := by
  have hk (f : Fields) (h : AgreeOn [keyRegion f] m m') : bytesAt m f.a.toNat f.len.toNat = bytesAt m' f.a.toNat f.len.toNat :=
    bytesAt_congr fun k hk => h _ (List.mem_singleton.2 rfl) _ ⟨by simp [keyRegion], by simp only [keyRegion]; omega⟩
  cases i with
  | rotl32 f => rfl
  | rotl64 f => rfl
  | fmix32 f => rfl
  | fmix64 f => rfl
  | hashX86_32 f => simp only [digestBytes, hk f h]
  | hashX86_128 f => simp only [digestBytes, hk f h]
  | hashX64_128 f => simp only [digestBytes, hk f h]
  | hashX64_128_x16 f =>
    simp only [digestBytes]
    rw [List.flatMap_congr]
    intro n hn
    have hn := List.mem_range.1 hn
    refine congrArg pairBytes ?_
    have hw (j : Nat) (hj : j < nslots f) : slotWord m (if n < 8 then f.a.toNat else f.b.toNat) (n % 8) j
        = slotWord m' (if n < 8 then f.a.toNat else f.b.toNat) (n % 8) j := by
      rw [slotWord, slotWord]
      congr 2
      refine bytesAt_congr fun k hk => ?_
      split
      · refine h ⟨f.a.toNat, 64 * nslots f⟩ (by simp [readRegions, slotRegions]) _ ?_
        simp only [Within]; omega
      · refine h ⟨f.b.toNat, 64 * nslots f⟩ (by simp [readRegions, slotRegions]) _ ?_
        simp only [Within]; omega
    let main (m : Memory) : Word64 × Word64 := (List.range (f.len.toNat / 16)).foldl (fun h i => blockStepX64_128 h
      (slotWord m (if n < 8 then f.a.toNat else f.b.toNat) (n % 8) (2 * i))
      (slotWord m (if n < 8 then f.a.toNat else f.b.toNat) (n % 8) (2 * i + 1))) (f.seed.setWidth 64, f.seed.setWidth 64)
    have hf : main m = main m' := by
      refine List.foldl_ext _ _ _ fun h' i hi => ?_
      have := List.mem_range.1 hi
      rw [hw _ (by simp only [nslots, nblocks]; omega), hw _ (by simp only [nslots, nblocks]; omega)]
    dsimp only [main] at hf
    simp only [batchDigest, digestLane, hf]
    by_cases hc : f.len < f.pendLen
    · rw [if_pos hc, if_pos hc, hw _ (by simp [nslots, nblocks, extraBlock, hc]),
        hw _ (by simp [nslots, nblocks, extraBlock, hc])]
    · rw [if_neg hc, if_neg hc]

/-- Memories that hold the same string of bytes at a place agree on each byte of it. -/
theorem read_eq_of_bytesAt {m m' : Memory} {base n : Nat} {d d' : List Byte} (h : bytesAt m base n = d)
    (h' : bytesAt m' base n = d') (e : d = d') {a : Nat} (ha : base ≤ a ∧ a < base + n) :
    m.read a = m'.read a := by
  rw [← h, ← h'] at e
  obtain ⟨k, hk⟩ := Nat.exists_eq_add_of_le ha.1
  have e2 := congrArg (fun l => l.getD k 0) e
  simp only [getD_bytesAt, show k < n by omega, if_true] at e2
  rw [hk]; exact e2

/-- The same stores on memories that agree on a byte leave them agreeing on it. -/
theorem Memory.read_store_congr {m m' : Memory} (cells : List Host.Cell) {a : Nat} (hm : m.wf = true) (hm' : m'.wf = true)
    (h : m.read a = m'.read a) : (m.store cells).read a = (m'.store cells).read a := by
  induction cells generalizing m m' with
  | nil => exact h
  | cons c cells ih =>
    refine ih (Memory.wf_write _ _ hm) (Memory.wf_write _ _ hm') ?_
    rw [Memory.read_write _ _ _ hm, Memory.read_write _ _ _ hm', h]

/-! ### Commands that something interferes with -/

/-- Everything that being cut short does to memory (70_reset_and_hazards.md R222): each byte of the write region is the old or the
new one, and no other byte changes. -/
theorem read_halfWritten (p : Packet) {m : Memory} (t : State) (hm : m.wf = true) (a : Nat) :
    (Within (packetWrites p) a → (halfWritten p m t).mem.read a = m.read a ∨ (halfWritten p m t).mem.read a = t.mem.read a) ∧
    (¬Within (packetWrites p) a → (halfWritten p m t).mem.read a = m.read a) := by
  unfold halfWritten
  dsimp only
  split
  · rw [Memory.read_fill _ _ _ _ hm]
    refine ⟨fun ha => ?_, fun ha => if_neg ha⟩
    obtain ⟨h1, h2⟩ := ha
    rw [if_pos ⟨h1, h2⟩, Nat.add_sub_cancel' h1]
    split <;> simp
  · exact ⟨fun _ => .inl rfl, fun _ => rfl⟩

/-- A command that would have failed leaves the old memory (60_exceptions.md R195). -/
theorem halfWritten_of_ne_ok (p : Packet) (m : Memory) {t : State} (h : t.status ≠ Status.ok.code) :
    (halfWritten p m t).mem = m := if_neg h

/-- Stores meanwhile land outside the write region (70_reset_and_hazards.md R224). -/
theorem read_disturb (p : Packet) (cells : List Host.Cell) {t : State} (hm : t.mem.wf = true) {a : Nat}
    (ha : ¬Within (packetWrites p) a) : (disturb p cells t).mem.read a = (t.mem.store cells).read a := by
  unfold disturb
  dsimp only
  split
  · rw [Memory.read_fill _ _ _ _ (Memory.wf_store _ hm)]
    exact if_neg ha
  · rfl

/-- Stores outside a command's regions, or during one that fails, do nothing but land. -/
theorem disturb_mem_of_apart {p : Packet} {cells : List Host.Cell} {t : State}
    (h : (∀ c ∈ cells, inPacketRegions p c.1 = false) ∨ t.status ≠ Status.ok.code) :
    (disturb p cells t).mem = t.mem.store cells := by
  unfold disturb
  rw [if_neg]
  simp only [Bool.and_eq_true, decide_eq_true_eq, List.any_eq_true]
  rintro ⟨hs, c, hc, hr⟩
  rcases h with h | h
  · rw [h c hc] at hr
    cases hr
  · exact h hs

/-- A byte of the write region is a byte of the packet's regions. -/
theorem inPacketRegions_of_writes {p : Packet} {a : Nat} (h : Within (packetWrites p) a) : inPacketRegions p a = true := by
  simp [inPacketRegions, Region.contains, h.1, h.2]

/-- Interference keeps the canonical form of memory and the address space, where a successful command's write region lies
inside memory. -/
theorem halfWritten_keeps (p : Packet) {m : Memory} {t : State} {lim : Nat} (hm : m.wf = true) (hi : m.within lim = true)
    (hg : t.status = Status.ok.code → (packetWrites p).size = 0 ∨ (packetWrites p).base + (packetWrites p).size ≤ lim) :
    (halfWritten p m t).mem.wf = true ∧ (halfWritten p m t).mem.within lim = true := by
  unfold halfWritten
  dsimp only
  split
  · exact ⟨Memory.wf_fill _ _ _ hm, Memory.within_fill _ hi (hg ‹_›)⟩
  · exact ⟨hm, hi⟩

theorem disturb_keeps (p : Packet) {cells : List Host.Cell} {t : State} {lim : Nat} (hm : t.mem.wf = true)
    (hi : t.mem.within lim = true) (hc : ∀ c ∈ cells, c.1 < lim)
    (hg : t.status = Status.ok.code → (packetWrites p).size = 0 ∨ (packetWrites p).base + (packetWrites p).size ≤ lim) :
    (disturb p cells t).mem.wf = true ∧ (disturb p cells t).mem.within lim = true := by
  have hw := Memory.wf_store cells hm
  have hl := Memory.within_store cells hi hc
  unfold disturb
  dsimp only
  split
  · rename_i h
    simp only [Bool.and_eq_true, decide_eq_true_eq] at h
    exact ⟨Memory.wf_fill _ _ _ hw, Memory.within_fill _ hl (hg h.1)⟩
  · exact ⟨hw, hl⟩

/-- A packet that ends in `OK` has its write region inside memory. -/
theorem runPacket_write_fits {p : Packet} {s t : State} (h : runPacket p s = .next t) (hs : t.status = Status.ok.code) :
    (packetWrites p).size = 0 ∨ (packetWrites p).base + (packetWrites p).size ≤ 2 ^ s.cfg.aw := by
  rcases runPacket_of_cfg p s.cfg with ⟨st, hne, hf⟩ | ⟨i, hi, hx⟩
  · obtain rfl := Host.Outcome.next.inj (h.symm.trans (hf s rfl))
    exact absurd hs (Status.code_ne_ok hne)
  · rw [packetWrites_of_ok hi]
    exact hx.write_fits

/-! ### One input -/

theorem step_eq {s : State} {e : Input} {rest : List Input} (h : s.inputs = e :: rest) :
    step s = takeInput e { s with inputs := rest } := by
  rw [step, h]

/-- A command that has run to its end is answered. -/
theorem step_command {s t : State} {host : Nat} {p : Packet} {rest : List Input} (h : s.inputs = .command host p :: rest)
    (ht : runPacket p { s with inputs := rest } = .next t) : step s = .next (t.deliver host) := by
  rw [step_eq h, takeInput, ht, carryOn_next]

theorem step_idle {s : State} (h : s.inputs = []) : step s = .next s := by
  rw [step, h]

theorem outsideMemory_eq_none {c : Config} {cells : List Host.Cell} :
    outsideMemory c cells = none ↔ ∀ x ∈ cells, x.1 < 2 ^ c.aw := by
  rw [outsideMemory, Option.map_eq_none_iff, List.find?_eq_none]
  exact forall₂_congr fun x _ => by rw [decide_eq_true_eq, Nat.not_le, Config.memSize]

/-- The fields of a response packet (30_encoding.md R63). -/
@[simp] theorem responsePacket_status (st : BitVec 8) (res : Word64) : (responsePacket st res).extractLsb' 0 8 = st :=
  BitVec.extractLsb'_append_eq_right

@[simp] theorem responsePacket_zero (st : BitVec 8) (res : Word64) : (responsePacket st res).extractLsb' 8 56 = 0 := by
  rw [responsePacket, BitVec.extractLsb'_append_eq_of_le (by omega)]
  exact BitVec.extractLsb'_append_eq_right

@[simp] theorem responsePacket_res (st : BitVec 8) (res : Word64) : (responsePacket st res).extractLsb' 64 64 = res := by
  rw [responsePacket, BitVec.extractLsb'_append_eq_of_le (by omega)]
  exact BitVec.extractLsb'_append_eq_left

/-- The response of a legal status, with `RES` 0 where the command failed, is a legal response packet (30_encoding.md R63). -/
theorem legal_responsePacket {st : BitVec 8} {res : Word64} (hs : st.toNat ≤ 5) (hr : st ≠ 0 → res = 0) :
    LegalResponse (responsePacket st res) :=
  ⟨by rwa [responsePacket_status], responsePacket_zero st res, by rwa [responsePacket_status, responsePacket_res]⟩

/-- The response registers of a packet that has run are of the legal form. -/
theorem runPacket_legal {p : Packet} {s t : State} (h : runPacket p s = .next t) :
    t.status.toNat ≤ 5 ∧ (t.status ≠ 0 → t.res = 0) := by
  obtain ⟨t', ht, hc⟩ := runPacket_cases p s
  obtain rfl : t = t' := Host.Outcome.next.inj (h.symm.trans ht)
  rcases hc with ⟨st, -, e⟩ | ⟨i, -, -, he⟩
  · rw [e]
    exact ⟨Status.code_le st, fun _ => rfl⟩
  · rw [he.status]
    exact ⟨by decide, fun hne => absurd rfl hne⟩

end Sys2Proof.Machine
end

