-- ==== Sys2Proof/Tests/Slice0.lean ====
section
/-! SUPPORT. The author's own tests, each expected value taken from spec/, and for every obligation with hypotheses a concrete
case that meets them (`witness_<the obligation's name>`). -/
namespace Sys2Proof.Machine

/-! ### Helpers -/

/-- The next state, where there is one. -/
def stateOf : Host.Outcome State Fault Refusal → State
  | .next t => t
  | _ => State.reset

/-- The state after reset with these bytes in memory from `addr` on. -/
def withKey (addr : Nat) (key : List Byte) : State :=
  { State.reset with mem := (key.zipIdx addr).foldl (fun m x => m.write x.2 x.1) [] }

/-- The state after reset with these inputs waiting. -/
def queued (es : List Input) : State := { State.reset with inputs := es }

/-- The bytes `00 01 02 ..`. -/
def rising (n : Nat) : List Byte := (List.range n).map (BitVec.ofNat 8)

/-! ### Well-formedness: one ill-formed term for each check -/

theorem test_wf_rotl32_by_31 : (Instr.rotl32 { r := 31 }).wellFormed = true := by decide
theorem test_wf_rotl32_by_32 : (Instr.rotl32 { r := 32 }).wellFormed = false := by decide
theorem test_wf_rotl64_by_63 : (Instr.rotl64 { r := 63 }).wellFormed = true := by decide
theorem test_wf_fmix32 : (Instr.fmix32 { r := 1 }).wellFormed = false := by decide
theorem test_wf_fmix64 : (Instr.fmix64 { r := 1 }).wellFormed = false := by decide
theorem test_wf_hashX86_32 : (Instr.hashX86_32 { r := 1 }).wellFormed = false := by decide
theorem test_wf_hashX86_128 : (Instr.hashX86_128 { r := 32 }).wellFormed = false := by decide
theorem test_wf_hashX64_128 : (Instr.hashX64_128 { r := 63 }).wellFormed = false := by decide
theorem test_wf_hashX64_128_x16 : (Instr.hashX64_128_x16 { r := 2 }).wellFormed = false := by decide

/-! ### Decoding: packets written out `W4 .. W0` from 30_encoding.md R60 and R64 -/

/-- 30_encoding.md R70, the second example. -/
theorem test_decode_rotl32 :
    decode 0x0000000000000000_0000000000000000_0000000080000001_0000000000000000_0000000000000041
      = .ok (.rotl32 { r := 4, a := 0x80000001 }) := by decide

/-- `R = 63` at bits 9:4 is `0x3f0`. -/
theorem test_decode_rotl64 :
    decode 0x0000000000000000_0000000000000000_0123456789abcdef_0000000000000000_00000000000003f2
      = .ok (.rotl64 { r := 63, a := 0x0123456789abcdef }) := by decide

theorem test_decode_fmix32 :
    decode 0x0000000000000000_0000000000000000_00000000deadbeef_0000000000000000_0000000000000003
      = .ok (.fmix32 { a := 0xdeadbeef }) := by decide

theorem test_decode_fmix64 :
    decode 0x0000000000000000_0000000000000000_deadbeefcafebabe_0000000000000000_0000000000000004
      = .ok (.fmix64 { a := 0xdeadbeefcafebabe }) := by decide

/-- 30_encoding.md R70, the first example. -/
theorem test_decode_hashX86_32 :
    decode 0x0000000000002000_0000000000000000_0000000000001000_000000000000000D_000004D200000005
      = .ok (.hashX86_32 { seed := 1234, len := 13, a := 0x1000, out := 0x2000 }) := by decide

theorem test_decode_hashX86_128 :
    decode 0x0000000000002000_0000000000000000_0000000000001000_0000000000000015_9747b28c00000006
      = .ok (.hashX86_128 { seed := 0x9747b28c, len := 21, a := 0x1000, out := 0x2000 }) := by decide

theorem test_decode_hashX64_128 :
    decode 0x0000000000002000_0000000000000000_0000000000001000_000000000000001b_9747b28c00000007
      = .ok (.hashX64_128 { seed := 0x9747b28c, len := 27, a := 0x1000, out := 0x2000 }) := by decide

/-- 95_test_vectors.md section 7.1. -/
theorem test_decode_hashX64_128_x16 :
    decode 0x0000000000030000_0000000000020000_0000000000010000_000000200000001b_9747b28c00000008
      = .ok (.hashX64_128_x16 { seed := 0x9747b28c, len := 27, pendLen := 32, a := 0x10000, b := 0x20000, out := 0x30000 }) := by
  decide

/-! 30_encoding.md R65: the four ways in which a packet is illegal, each by name. -/

theorem test_decode_opcode_0 : decode 0x0 = .error .reservedOpcode := by decide
theorem test_decode_opcode_9 : decode 0x9 = .error .reservedOpcode := by decide
theorem test_decode_opcode_15 : decode 0xf = .error .reservedOpcode := by decide
theorem test_decode_bit_10 : decode 0x401 = .error .reservedBits := by decide
theorem test_decode_bit_31 : decode 0x80000008 = .error .reservedBits := by decide
theorem test_decode_rotl32_by_32 : decode 0x201 = .error .rotationTooLarge := by decide
theorem test_decode_fmix32_with_r : decode 0x13 = .error .rotationNotZero := by decide
theorem test_decode_batch_with_r : decode 0x3f8 = .error .rotationNotZero := by decide

/-! ### Results, from 95_test_vectors.md -/

/-- Section 3: bits 63:32 of `A` are ignored. -/
theorem test_rotl32 : (stateOf (exec (.rotl32 { r := 4, a := 0xffffffff80000001 }) State.reset)).res = 0x18 := by decide
/-- Section 3, `r = 31`. -/
theorem test_rotl32_by_31 : (stateOf (exec (.rotl32 { r := 31, a := 0x12345678 }) State.reset)).res = 0x091a2b3c := by decide
/-- Section 3, `r = 63`. -/
theorem test_rotl64_by_63 :
    (stateOf (exec (.rotl64 { r := 63, a := 0x0123456789abcdef }) State.reset)).res = 0x8091a2b3c4d5e6f7 := by decide
/-- Section 3, `r = 32`, which ROTL32 does not take. -/
theorem test_rotl64_by_32 : (stateOf (exec (.rotl64 { r := 32, a := 1 }) State.reset)).res = 0x100000000 := by decide
/-- Section 3: bits 63:32 of `A` are ignored. -/
theorem test_fmix32 : (stateOf (exec (.fmix32 { a := 0xaaaaaaaa00000001 }) State.reset)).res = 0x514e28b7 := by decide
/-- Section 3. -/
theorem test_fmix32_deadbeef : (stateOf (exec (.fmix32 { a := 0xdeadbeef }) State.reset)).res = 0x0de5c6a9 := by decide
/-- Section 3. -/
theorem test_fmix64 :
    (stateOf (exec (.fmix64 { a := 0x0123456789abcdef }) State.reset)).res = 0x87cbfbfe89022cea := by decide
/-- Section 3. -/
theorem test_fmix64_deadbeef :
    (stateOf (exec (.fmix64 { a := 0xdeadbeefcafebabe }) State.reset)).res = 0x7082995008f0c48c := by decide

/-- 42_hash_x86_32.md R109: the key "abcde". -/
theorem test_hashX86_32 : bytesAt (stateOf (exec (.hashX86_32 { a := 0x1000, len := 5, out := 0x2000 })
      (withKey 0x1000 [0x61, 0x62, 0x63, 0x64, 0x65]))).mem 0x2000 4
    = [0xf6, 0x9a, 0x9b, 0xe8] := by decide
/-- Section 4: a block and a tail of three bytes `ff`. -/
theorem test_hashX86_32_ff : bytesAt (stateOf (exec (.hashX86_32 { a := 0x1000, len := 7, seed := 1, out := 0x2000 })
      (withKey 0x1000 (List.replicate 7 0xff)))).mem 0x2000 4
    = [0x58, 0x67, 0xb2, 0x57] := by decide
/-- 43_hash_x86_128.md R130: 21 bytes. -/
theorem test_hashX86_128 :
    bytesAt (stateOf (exec (.hashX86_128 { a := 0x1000, len := 21, seed := 0x9747b28c, out := 0x2000 })
      (withKey 0x1000 (rising 21)))).mem 0x2000 16
    = [0x58, 0x83, 0x63, 0x15, 0x73, 0x0c, 0x78, 0x90, 0xfa, 0xf3, 0xb9, 0x97, 0x7f, 0xae, 0xee, 0x55] := by decide
/-- Section 5: a tail of fifteen bytes `ff`. -/
theorem test_hashX86_128_ff : bytesAt (stateOf (exec (.hashX86_128 { a := 0x1000, len := 15, out := 0x2000 })
      (withKey 0x1000 (List.replicate 15 0xff)))).mem 0x2000 16
    = [0x2e, 0x34, 0xd5, 0x8e, 0xb2, 0x74, 0xde, 0x37, 0x9e, 0xca, 0x2d, 0x10, 0x1a, 0x37, 0x5d, 0x3f] := by decide
/-- 44_hash_x64_128.md R150: 27 bytes. -/
theorem test_hashX64_128 :
    bytesAt (stateOf (exec (.hashX64_128 { a := 0x1000, len := 27, seed := 0x9747b28c, out := 0x2000 })
      (withKey 0x1000 (rising 27)))).mem 0x2000 16
    = [0x00, 0xef, 0x65, 0x13, 0xa7, 0xad, 0x05, 0xc0, 0x25, 0xe4, 0xf5, 0x43, 0xbb, 0x3b, 0x61, 0x60] := by decide
/-- Section 6: a tail of fifteen bytes `ff`. -/
theorem test_hashX64_128_ff : bytesAt (stateOf (exec (.hashX64_128 { a := 0x1000, len := 15, out := 0x2000 })
      (withKey 0x1000 (List.replicate 15 0xff)))).mem 0x2000 16
    = [0x54, 0xee, 0x13, 0xcb, 0x48, 0x1a, 0x9d, 0x2c, 0x01, 0x37, 0x72, 0xb4, 0xeb, 0x9a, 0x0e, 0x08] := by decide

/-- The buffers of section 7.4 for `LEN = 1`: key `n` is the byte `16 * n`. -/
def batchMemory : Memory :=
  [(0x10008, 0x10), (0x10010, 0x20), (0x10018, 0x30), (0x10020, 0x40), (0x10028, 0x50), (0x10030, 0x60), (0x10038, 0x70),
   (0x20000, 0x80), (0x20008, 0x90), (0x20010, 0xa0), (0x20018, 0xb0), (0x20020, 0xc0), (0x20028, 0xd0), (0x20030, 0xe0),
   (0x20038, 0xf0)]

/-- The command of section 7.4 for `LEN = 1`. -/
def batchFields : Fields := { a := 0x10000, b := 0x20000, len := 1, pendLen := 16, seed := 1, out := 0x30000 }

/-- Section 7.4, `LEN = 1`: the digest of key 9 (`5a 89 da cc 1a d6 3d f8 07 ce 47 33 28 c1 5c f4`) is in lane 1 of group 1. -/
theorem test_hashX64_128_x16 :
    (stateOf (exec (.hashX64_128_x16 batchFields) { State.reset with mem := batchMemory })).group1.vh1.l1 = 0xf83dd61accda895a ∧
    (stateOf (exec (.hashX64_128_x16 batchFields) { State.reset with mem := batchMemory })).group1.vh2.l1 = 0xf45cc1283347ce07 := by
  decide
/-- 60_exceptions.md R193 step 2: `PEND_LEN = 2^31` fails with `ERR_LEN`. -/
theorem test_hashX64_128_x16_pend_len :
    (stateOf (exec (.hashX64_128_x16 { pendLen := 0x80000000 }) State.reset)).status = 2 := by decide

/-! ### The first step after reset -/

/-- 30_encoding.md R70's ROTL32 packet, answered to host 0: `STATUS = 0`, `RES = 0x18` (30_encoding.md R63). -/
theorem test_step_rotl32 :
    (stateOf (step (State.reset.withFetchWord 192 0x80000001_0000000000000000_0000000000000041))).responses
      = [⟨0, 0x0000000000000018_0000000000000000⟩] := by decide
/-- An illegal packet is answered with `STATUS = 1`, `RES = 0` (30_encoding.md R65). -/
theorem test_step_illegal :
    (stateOf (step (State.reset.withFetchWord 32 0x201))).responses = [⟨0, 1⟩] := by decide

/-! ### Witnesses: reset and the other inputs -/

theorem witness_ResetInputKeepsMemory : (queued [.reset]).inputs = .reset :: [] := rfl

theorem witness_CommandAfterResetIsAsAnyOther :
    (queued [.reset, .command 0 0x41]).mem.wf = true ∧ (queued [.reset, .command 0 0x41]).inputs = .reset :: .command 0 0x41 :: [] :=
  ⟨rfl, rfl⟩

theorem witness_IdleEngineStaysIdle : State.reset.inputs = [] := rfl

/-- The last address that exists, the first that does not, and a change of the predicates. -/
theorem witness_HostsOwnTheMemory :
    ((queued [.store 0xffffffffffffffff 1]).mem.wf = true ∧
      (queued [.store 0xffffffffffffffff 1]).inputs = .store 0xffffffffffffffff 1 :: [] ∧
      0xffffffffffffffff < 2 ^ (queued [.store 0xffffffffffffffff 1]).cfg.aw) ∧
    ((queued [.store 0x10000000000000000 1]).inputs = .store 0x10000000000000000 1 :: [] ∧
      2 ^ (queued [.store 0x10000000000000000 1]).cfg.aw ≤ 0x10000000000000000) ∧
    (queued [.setAccess [⟨0, 1⟩] []]).inputs = .setAccess [⟨0, 1⟩] [] :: [] := by decide

/-! ### Witnesses: packets and the decoder -/

/-- All fields with their highest bit set. -/
def wideFields : Fields where
  r       := 63
  seed    := 0x80000001
  len     := 0x80000002
  pendLen := 0x80000003
  a       := 0x8000000000000004
  b       := 0x8000000000000005
  out     := 0x8000000000000006

def widePacket : Packet := 0x8000000000000006_8000000000000005_8000000000000004_8000000380000002_80000001000003f2

theorem witness_PacketFieldsAreAtTheirBits : decode widePacket = .ok (.rotl64 wideFields) := by decide

/-- The two sides of the equivalence hold for the last row, and fail for the first. -/
theorem witness_CommandWordAloneSelects :
    (⟨0x00000008, 0xFFFFFFFF, .hashX64_128_x16⟩ ∈ opcodeTable ∧
      (0x8 : Packet).extractLsb' 0 32 &&& 0xFFFFFFFF = 0x00000008#32) ∧
    ⟨0x00000001, 0xFFFFFE0F, .rotl32⟩ ∈ opcodeTable ∧
      (0x8 : Packet).extractLsb' 0 32 &&& 0xFFFFFE0F ≠ 0x00000001#32 :=
  ⟨⟨by simp [opcodeTable], by decide⟩, by simp [opcodeTable], by decide +kernel⟩

/-- Each disjunct at a boundary, and the packet that the second clause is about. -/
theorem witness_IllegalPacketsFail :
    (0x0 : Packet).op = 0x0 ∧ 0x9 ≤ (0x9 : Packet).op ∧ (0x401 : Packet).cmd.extractLsb' 10 22 ≠ 0 ∧
    (0x3 ≤ (0x13 : Packet).op ∧ (0x13 : Packet).op ≤ 0x8 ∧ (0x13 : Packet).fields.r ≠ 0) ∧
    ((0x201 : Packet).op = 0x1 ∧ 32 ≤ (0x201 : Packet).fields.r.toNat) ∧ decode 0x9 = .error .reservedOpcode := by
  decide

theorem witness_DecodeOfEncode :
    (Instr.rotl32 { wideFields with r := 31 }).wellFormed = true ∧ (Instr.rotl64 wideFields).wellFormed = true ∧
    (Instr.hashX64_128_x16 { wideFields with r := 0 }).wellFormed = true := by decide

theorem witness_EncodeOfDecode : decode widePacket = .ok (.rotl64 wideFields) := by decide

/-- Commands that differ in every ignored field, one of each shape. -/
theorem witness_UnusedFieldsAreIgnored :
    State.reset.mem.wf = true ∧
    SameUsed (.rotl32 { r := 31, a := 5 })
      (.rotl32 { r := 31, seed := 1, len := 2, pendLen := 3, a := 0xffffffff00000005, b := 4, out := 6 }) ∧
    SameUsed (.fmix64 { a := 5 }) (.fmix64 { seed := 1, len := 2, pendLen := 3, a := 5, b := 4, out := 6 }) ∧
    SameUsed (.hashX86_32 { a := 5 }) (.hashX86_32 { a := 5, pendLen := 0xffffffff, b := 4 }) ∧
    SameUsed (.hashX64_128_x16 wideFields) (.hashX64_128_x16 wideFields) := by
  simp only [SameUsed]; decide

/-! ### Witnesses: one step with a command -/

theorem witness_StepRunsTheDecodedCommand :
    (queued [.command 7 0x41]).inputs = .command 7 0x41 :: [] ∧ decode 0x41 = .ok (.rotl32 { r := 4 }) ∧
    ∃ t, exec (.rotl32 { r := 4 }) { queued [.command 7 0x41] with inputs := [] } = .next t :=
  ⟨rfl, by decide, _, rfl⟩

/-- A command that succeeds and a packet that fails. -/
theorem witness_ExactlyOneResponsePerCommand :
    (queued [.command 7 0x41, .command 7 0x0]).inputs = .command 7 0x41 :: [.command 7 0x0] ∧
    (queued [.command 7 0x0]).inputs = .command 7 0x0 :: [] ∧ decode 0x41 = .ok (.rotl32 { r := 4 }) ∧
    (stateOf (runPacket 0x41 State.reset)).status = Status.ok.code ∧
    (stateOf (runPacket 0x0 State.reset)).status ≠ Status.ok.code := by
  decide

/-! ### Witnesses: checks and failures -/

/-- Nothing is closed. -/
def openConfig : Config := {}

/-- The byte at 0x1000 is not readable, the byte at 0x2000 is not writable. -/
def closedConfig : Config := { noRead := [⟨0x1000, 1⟩], noWrite := [⟨0x2000, 1⟩] }

/-- For each HASH command every failing status: `R = 1`; `LEN = 2^31`; `OUT` the last byte of memory; the first key byte not
readable; the first digest byte not writable. -/
theorem verdicts_met (c : Fields → Instr) (hc : c ∈ [Instr.hashX86_32, .hashX86_128, .hashX64_128, .hashX64_128_x16]) :
    Verdict (c { r := 1 }) openConfig .errIllegal ∧
    Verdict (c { len := 0x80000000 }) openConfig .errLen ∧
    Verdict (c { out := 0xffffffffffffffff }) openConfig .errAddr ∧
    Verdict (c { len := 1, pendLen := 16, a := 0x1000, b := 0x3000 }) closedConfig .errRead ∧
    Verdict (c { out := 0x2000 }) closedConfig .errWrite := by
  have hread (c : Config) (g : Region) (h : g.size = 0) (a : Nat) : Within g a → c.readable a = true := fun hw => by
    have h1 := hw.1
    have h2 := hw.2
    omega
  simp only [List.mem_cons, List.not_mem_nil, or_false] at hc
  rcases hc with rfl | rfl | rfl | rfl <;>
    refine ⟨by simp only [Verdict]; decide, ⟨by decide, id, by simp only [LengthsLegal]; decide⟩,
      ⟨by decide, id, by simp only [LengthsLegal]; decide, fun h => absurd h.2 (by simp only [Fits]; decide)⟩,
      ⟨by decide, id, by simp only [LengthsLegal]; decide, ?_, fun h =>
        absurd (h _ List.mem_cons_self 0x1000 (by simp only [Within]; decide)) (by decide)⟩,
      ⟨by decide, id, by simp only [LengthsLegal]; decide, ?_, ?_, fun h =>
        absurd (h 0x2000 (by simp only [Within]; decide)) (by decide)⟩⟩
  all_goals
    first
    | exact ⟨by simp only [Fits, readRegions, slotRegions, List.mem_cons, List.not_mem_nil, or_false, forall_eq_or_imp,
        forall_eq]; decide, by simp only [Fits]; decide⟩
    | (simp only [AllReadable, readRegions, slotRegions, List.mem_cons, List.not_mem_nil, or_false, forall_eq_or_imp, forall_eq]
       first
       | exact fun a => hread _ _ (by decide) a
       | exact ⟨fun a => hread _ _ (by decide) a, fun a => hread _ _ (by decide) a⟩)

/-- Where nothing is closed and both regions are inside memory, a HASH command of legal lengths executes. -/
theorem executes_open {i : Instr} {c : Config} (hr : c.noRead = []) (hw : c.noWrite = []) (h1 : i.wellFormed = true)
    (h2 : LengthsLegal i) (h3 : RegionsFit c (readRegions i) (writeRegion i)) : Executes i c :=
  ⟨h1, .inr ⟨h2, h3, fun _ _ _ _ => by simp [Config.readable, hr], fun _ _ => by simp [Config.writable, hw]⟩⟩

/-- A key of one byte at the last address of memory, the digest at the last place that holds it, and no key at all. -/
theorem executes_at_the_top :
    Executes (.hashX86_32 { len := 1, a := 0xffffffffffffffff, out := 0xfffffffffffffffc }) State.reset.cfg ∧
    Executes (.hashX86_128 { len := 1, a := 0xffffffffffffffff, out := 0xfffffffffffffff0 }) State.reset.cfg ∧
    Executes (.hashX64_128 { len := 1, a := 0xffffffffffffffff, out := 0xfffffffffffffff0 }) State.reset.cfg ∧
    Executes (.hashX64_128_x16 { len := 1, pendLen := 2, a := 0xffffffffffffff80, b := 0xffffffffffffff80, out := 0xffffffffffffff00 })
      State.reset.cfg := by
  refine ⟨executes_open rfl rfl (by decide) (by simp only [LengthsLegal]; decide) ?_,
    executes_open rfl rfl (by decide) (by simp only [LengthsLegal]; decide) ?_,
    executes_open rfl rfl (by decide) (by simp only [LengthsLegal]; decide) ?_,
    executes_open rfl rfl (by decide) (by simp only [LengthsLegal]; decide) ?_⟩
  all_goals
    simp only [RegionsFit, Fits, readRegions, slotRegions, List.mem_cons, List.not_mem_nil, or_false, forall_eq_or_imp, forall_eq]
    decide

/-- Each clause: an illegal word, a leaf command, and each check's failure and success for a HASH command. -/
theorem witness_FirstFailingCheckDecides :
    (∀ w ∈ opcodeTable, (0x0 : Packet).cmd &&& w.mask ≠ w.pattern) ∧
    decode 0x41 = .ok (.rotl32 { r := 4 }) ∧ Leaf (.rotl32 { r := 4 }) ∧
    decode 0x8 = .ok (.hashX64_128_x16 {}) ∧
    Verdict (.hashX64_128_x16 { len := 0x80000000 }) openConfig .errLen ∧
    Verdict (.hashX64_128_x16 { out := 0xffffffffffffffff }) openConfig .errAddr ∧
    Verdict (.hashX64_128_x16 { len := 1, pendLen := 16, a := 0x1000, b := 0x3000 }) closedConfig .errRead ∧
    Verdict (.hashX64_128_x16 { out := 0x2000 }) closedConfig .errWrite ∧
    Executes (.hashX64_128_x16 { len := 1, pendLen := 2, a := 0xffffffffffffff80, b := 0xffffffffffffff80, out := 0xffffffffffffff00 })
      State.reset.cfg := by
  have h := verdicts_met .hashX64_128_x16 (by simp)
  refine ⟨?_, by decide, trivial, by decide +kernel, h.2.1, h.2.2.1, h.2.2.2.1, h.2.2.2.2, executes_at_the_top.2.2.2⟩
  simp only [opcodeTable, List.mem_cons, List.not_mem_nil, or_false, forall_eq_or_imp, forall_eq]
  decide

theorem witness_ChecksComeBeforeEffects :
    ∃ t, runPacket 0x201 State.reset = .next t ∧ t.status ≠ Status.ok.code :=
  ⟨_, runPacket_of_error (e := .rotationTooLarge) (by decide) _, by decide⟩

/-- A failed packet and a command after it. -/
theorem witness_FailedCommandLeavesNoTrace :
    (queued [.command 0 0x201, .command 1 0x41]).mem.wf = true ∧
    (queued [.command 0 0x201, .command 1 0x41]).inputs = .command 0 0x201 :: [.command 1 0x41] ∧
    ∃ t, runPacket 0x201 { queued [.command 0 0x201, .command 1 0x41] with inputs := [.command 1 0x41] } = .next t ∧
      t.status ≠ Status.ok.code :=
  ⟨rfl, rfl, _, runPacket_of_error (e := .rotationTooLarge) (by decide) _, by decide⟩

/-! ### Witnesses: the leaf commands -/

/-- The highest amount and the highest bit. -/
theorem witness_RotationMovesEachBit : ∃ (r : Fin 32) (i : Nat), r.val = 31 ∧ i = 31 ∧ i < 32 := ⟨31, 31, rfl, rfl, by decide⟩

/-- An illegal word of each of the two kinds, and the highest legal amount. -/
theorem witness_Rotl32Command :
    ((0x401 : Packet).op = 0x1 ∧ (0x401 : Packet).cmd.extractLsb' 10 22 ≠ 0) ∧
    ((0x201 : Packet).op = 0x1 ∧ 32 ≤ (0x201 : Packet).fields.r.toNat) ∧ (wideFields.r - 32).toNat < 32 := by decide

theorem witness_Rotl64Command :
    (0x80000002 : Packet).op = 0x2 ∧ (0x80000002 : Packet).cmd.extractLsb' 10 22 ≠ 0 := by decide

theorem witness_Fmix32Command :
    ((0x13 : Packet).op = 0x3 ∧ (0x13 : Packet).cmd.extractLsb' 4 28 ≠ 0) ∧ ({ wideFields with r := 0 } : Fields).r = 0 := by
  decide

theorem witness_Fmix64Command :
    ((0x80000004 : Packet).op = 0x4 ∧ (0x80000004 : Packet).cmd.extractLsb' 4 28 ≠ 0) ∧
      ({ wideFields with r := 0 } : Fields).r = 0 := by
  decide

/-! ### Witnesses: the digest engines -/

theorem witness_HashX86_32Command :
    ((0x15 : Packet).op = 0x5 ∧ (0x15 : Packet).cmd.extractLsb' 4 28 ≠ 0) ∧
    Verdict (.hashX86_32 { out := 0xffffffffffffffff }) openConfig .errAddr ∧ State.reset.mem.wf = true ∧
    Executes (.hashX86_32 { len := 1, a := 0xffffffffffffffff, out := 0xfffffffffffffffc }) State.reset.cfg :=
  ⟨by decide, (verdicts_met .hashX86_32 (by simp)).2.2.1, rfl, executes_at_the_top.1⟩

theorem witness_HashX86_128Command :
    ((0x406 : Packet).op = 0x6 ∧ (0x406 : Packet).cmd.extractLsb' 4 28 ≠ 0) ∧
    Verdict (.hashX86_128 { out := 0xffffffffffffffff }) openConfig .errAddr ∧ State.reset.mem.wf = true ∧
    Executes (.hashX86_128 { len := 1, a := 0xffffffffffffffff, out := 0xfffffffffffffff0 }) State.reset.cfg :=
  ⟨by decide, (verdicts_met .hashX86_128 (by simp)).2.2.1, rfl, executes_at_the_top.2.1⟩

theorem witness_HashX64_128Command :
    ((0x207 : Packet).op = 0x7 ∧ (0x207 : Packet).cmd.extractLsb' 4 28 ≠ 0) ∧
    Verdict (.hashX64_128 { out := 0xffffffffffffffff }) openConfig .errAddr ∧ State.reset.mem.wf = true ∧
    Executes (.hashX64_128 { len := 1, a := 0xffffffffffffffff, out := 0xfffffffffffffff0 }) State.reset.cfg :=
  ⟨by decide, (verdicts_met .hashX64_128 (by simp)).2.2.1, rfl, executes_at_the_top.2.2.1⟩

theorem witness_HashX64_128_x16Command :
    ((0x80000008 : Packet).op = 0x8 ∧ (0x80000008 : Packet).cmd.extractLsb' 4 28 ≠ 0) ∧
    Verdict (.hashX64_128_x16 { out := 0xffffffffffffffff }) openConfig .errAddr ∧ State.reset.mem.wf = true ∧
    Executes (.hashX64_128_x16 { len := 1, pendLen := 2, a := 0xffffffffffffff80, b := 0xffffffffffffff80, out := 0xffffffffffffff00 })
      State.reset.cfg :=
  ⟨by decide, (verdicts_met .hashX64_128_x16 (by simp)).2.2.1, rfl, executes_at_the_top.2.2.2⟩

/-- The key addresses are outside a memory of `2^32` bytes; the digest is at its last place. -/
theorem witness_EmptyKeyReadsNothing :
    ∃ (f g h : Fields) (s : State), s.mem.wf = true ∧ s.cfg.aw = 32 ∧ f.r = 0 ∧ f.len = 0 ∧ 2 ^ 32 ≤ f.a.toNat ∧
      Fits s.cfg ⟨f.out.toNat, 4⟩ ∧ AllWritable s.cfg ⟨f.out.toNat, 4⟩ ∧
      g.r = 0 ∧ g.len = 0 ∧ Fits s.cfg ⟨g.out.toNat, 16⟩ ∧ AllWritable s.cfg ⟨g.out.toNat, 16⟩ ∧
      h.r = 0 ∧ h.len = 0 ∧ h.pendLen = 0 ∧ Fits s.cfg ⟨h.out.toNat, 256⟩ ∧ AllWritable s.cfg ⟨h.out.toNat, 256⟩ :=
  ⟨{ a := 0x100000000, out := 0xfffffffc }, { out := 0xfffffff0 }, { out := 0xffffff00 },
    { State.reset with cfg := { aw := 32 } }, rfl, rfl, rfl, rfl, by decide, by simp only [Fits]; decide, fun _ _ => rfl,
    rfl, rfl, by simp only [Fits]; decide, fun _ _ => rfl, rfl, rfl, rfl, by simp only [Fits]; decide, fun _ _ => rfl⟩

theorem batchFields_executes : Executes (.hashX64_128_x16 batchFields) State.reset.cfg := by
  refine executes_open rfl rfl (by decide) (by simp only [LengthsLegal]; decide) ?_
  simp only [RegionsFit, Fits, readRegions, slotRegions, List.mem_cons, List.not_mem_nil, or_false, forall_eq_or_imp, forall_eq]
  decide

/-- Key `n` of the batch of section 7.4, `LEN = 1`. -/
def batchKey (n : Nat) : List Byte := [BitVec.ofNat 8 (16 * n)]

theorem batch_bytes : ∀ n : Fin 16, ∀ p : Fin 16,
    batchMemory.read (laneByteAddr (if n.val < 8 then batchFields.a.toNat else batchFields.b.toNat) (n.val % 8) p)
      = if p.val = 0 then BitVec.ofNat 8 (16 * n) else 0 := by decide

/-- The batch of section 7.4, `LEN = 1`, keeps the host's contract; the scalar command reads key 9 elsewhere. -/
theorem witness_BatchEqualsSixteenScalarDigests :
    batchMemory.wf = true ∧ Executes (.hashX64_128_x16 batchFields) State.reset.cfg ∧
    (∀ n, n < 16 → (batchKey n).length = batchFields.len.toNat ∧
      LaidOut batchMemory (if n < 8 then batchFields.a.toNat else batchFields.b.toNat) (n % 8) (batchKey n)
        batchFields.pendLen.toNat) ∧
    ∃ (g : Fields) (s' t' : State), s'.mem.wf = true ∧ Executes (.hashX64_128 g) s'.cfg ∧ g.seed = batchFields.seed ∧
      g.len = batchFields.len ∧ bytesAt s'.mem g.a.toNat g.len.toNat = batchKey 9 ∧ exec (.hashX64_128 g) s' = .next t' := by
  refine ⟨by decide, batchFields_executes, fun n hn => ⟨rfl, ?_, ?_, ?_⟩, ?_⟩
  · intro p hp
    have h0 : p = 0 := by have := hp; simp only [batchKey, List.length_singleton] at this; omega
    subst h0
    exact batch_bytes ⟨n, hn⟩ 0
  · intro _
    simp only [batchKey, List.length_singleton]
    decide
  · intro _ p h1 h2
    simp only [batchKey, List.length_singleton] at h1 h2
    refine (batch_bytes ⟨n, hn⟩ ⟨p, by omega⟩).trans (if_neg ?_)
    show ¬p = 0
    omega
  · obtain ⟨t', ht', -⟩ := exec_cases (.hashX64_128 { a := 0x1000, len := 1, seed := 1, out := 0x2000 }) (withKey 0x1000 [0x90])
    refine ⟨{ a := 0x1000, len := 1, seed := 1, out := 0x2000 }, withKey 0x1000 [0x90], t', by decide, executes_open rfl rfl (by decide) (by simp only [LengthsLegal]; decide) ?_, rfl, rfl, by decide, ht'⟩
    simp only [RegionsFit, Fits, readRegions, List.mem_cons, List.not_mem_nil, or_false, forall_eq]
    decide

/-- Key 0 is `05`, key 1 is `06`, the other keys are `00`. -/
def batchState : State := { State.reset with mem := [(0x10000, 5), (0x10008, 6)] }

/-- Key 8 is `07`, key 9 is `05`, the other keys are `00`. -/
def batchState2 : State := { State.reset with mem := [(0x20000, 7), (0x20008, 5)] }

/-- Key 0 of one batch and key 9 of another are equal, the keys beside them are not, and the commands differ in `PEND_LEN`. -/
theorem witness_LanesAreIndependent :
    ∃ (f g : Fields) (s u t v : State), s.mem.wf = true ∧ u.mem.wf = true ∧ f.seed = g.seed ∧ f.len = g.len ∧
      f.pendLen ≠ g.pendLen ∧ s.mem ≠ u.mem ∧ (f.len < f.pendLen ↔ g.len < g.pendLen) ∧
      (∀ j, j < nslots f → ∀ b, b < 8 →
        s.mem.read ((if 0 < 8 then f.a.toNat else f.b.toNat) + 64 * j + 8 * (0 % 8) + b)
          = u.mem.read ((if 9 < 8 then g.a.toNat else g.b.toNat) + 64 * j + 8 * (9 % 8) + b)) ∧
      Executes (.hashX64_128_x16 f) s.cfg ∧ Executes (.hashX64_128_x16 g) u.cfg ∧
      exec (.hashX64_128_x16 f) s = .next t ∧ exec (.hashX64_128_x16 g) u = .next v := by
  obtain ⟨t, ht, -⟩ := exec_cases (.hashX64_128_x16 batchFields) batchState
  obtain ⟨v, hv, -⟩ := exec_cases (.hashX64_128_x16 { batchFields with pendLen := 2 }) batchState2
  refine ⟨batchFields, { batchFields with pendLen := 2 }, batchState, batchState2, t, v, by decide,
    by decide, rfl, rfl, by decide, by decide, by decide, ?_, batchFields_executes, ?_, ht, hv⟩
  · have h : ∀ j : Fin 2, ∀ b : Fin 8,
        batchState.mem.read ((if 0 < 8 then batchFields.a.toNat else batchFields.b.toNat) + 64 * j + 8 * (0 % 8) + b)
          = batchState2.mem.read
            ((if 9 < 8 then batchFields.a.toNat else batchFields.b.toNat) + 64 * j + 8 * (9 % 8) + b) := by decide
    have hn : nslots batchFields = 2 := by decide
    exact fun j hj b hb => h ⟨j, hn ▸ hj⟩ ⟨b, hb⟩
  · refine executes_open rfl rfl (by decide) (by simp only [LengthsLegal]; decide) ?_
    simp only [RegionsFit, Fits, readRegions, slotRegions, List.mem_cons, List.not_mem_nil, or_false, forall_eq_or_imp, forall_eq]
    decide

/-- The two ends of the legal range above `LEN`. -/
theorem witness_PendingLengthIsOnlyCompared :
    batchMemory.wf = true ∧ ({ batchFields with pendLen := 2 } : Fields).pendLen.toNat < 2 ^ 31 ∧
    (0x7fffffff : Word32).toNat < 2 ^ 31 ∧
    (({ batchFields with pendLen := 2 } : Fields).len < ({ batchFields with pendLen := 2 } : Fields).pendLen ↔
      ({ batchFields with pendLen := 2 } : Fields).len < (0x7fffffff : Word32)) := by decide

theorem witness_SameBufferTwiceGivesEqualDigests :
    State.reset.mem.wf = true ∧
    Executes (.hashX64_128_x16 { len := 1, pendLen := 2, a := 0xffffffffffffff80, b := 0xffffffffffffff80, out := 0xffffffffffffff00 })
      State.reset.cfg := ⟨rfl, executes_at_the_top.2.2.2⟩

/-! ### Witnesses: frames -/

/-- A legal form and an illegal one. -/
theorem witness_LeafCommandsChangeOnlyTheResponse :
    (Leaf (.rotl32 { r := 31 }) ∧ ∃ t, exec (.rotl32 { r := 31 }) State.reset = .next t ∧ t.status = 0) ∧
    Leaf (.fmix32 { r := 1 }) ∧ ∃ t, exec (.fmix32 { r := 1 }) State.reset = .next t ∧ t.status = 1 :=
  ⟨⟨trivial, _, rfl, rfl⟩, trivial, _, rfl, rfl⟩

/-- Every HASH command answers a next state, here one that executes and has written outside nothing but its digest. -/
theorem witness_HashCommandsChangeOnlyTheirOwn :
    (∃ t, exec (.hashX86_32 { out := 0xfffffffffffffffc }) State.reset = .next t) ∧
    (∃ t, exec (.hashX86_128 { out := 0xfffffffffffffff0 }) State.reset = .next t) ∧
    (∃ t, exec (.hashX64_128 { out := 0xfffffffffffffff0 }) State.reset = .next t) ∧
    (∃ t, exec (.hashX64_128_x16 { out := 0xffffffffffffff00 }) State.reset = .next t) ∧ ¬Within ⟨0xfffffffffffffffc, 4⟩ 0 := by
  refine ⟨?_, ?_, ?_, ?_, by simp only [Within]; decide⟩
  all_goals
    obtain ⟨t, ht, -⟩ := exec_cases _ State.reset
    exact ⟨t, ht⟩

/-- The last stored byte, and the first byte behind the word. -/
theorem witness_WritesAreLittleEndian :
    batchMemory.wf = true ∧ (0x1000 ≤ 0x1003 ∧ 0x1003 < 0x1000 + 4) ∧ ¬(0x1000 ≤ 0x1004 ∧ 0x1004 < 0x1000 + 4) := by decide

/-! ### Witnesses: whole-machine rules -/

/-- `HASH_X86_32 key=0x1000, len=1, out=0x2000`, written out by 30_encoding.md R60. -/
def hashPacket : Packet := 0x0000000000002000_0000000000000000_0000000000001000_0000000000000001_0000000000000005

/-- The same command with its digest right behind the other's. -/
def hashPacket2 : Packet := 0x0000000000002004_0000000000000000_0000000000001000_0000000000000001_0000000000000005

theorem decode_hashPacket : decode hashPacket = .ok (.hashX86_32 { a := 0x1000, len := 1, out := 0x2000 }) := by decide

theorem decode_hashPacket2 : decode hashPacket2 = .ok (.hashX86_32 { a := 0x1000, len := 1, out := 0x2004 }) := by decide

/-- The two memories agree on the key's byte and differ beside it; the registers differ. -/
theorem witness_EqualPacketsGiveEqualResponses :
    ∃ s u : State, s.mem.wf = true ∧ u.mem.wf = true ∧ s.cfg = u.cfg ∧ s.mem ≠ u.mem ∧ s.res ≠ u.res ∧
      AgreeOn (packetReads hashPacket) s.mem u.mem := by
  refine ⟨withKey 0x1000 [5, 6], { withKey 0x1000 [5, 7] with res := 1 }, by decide, by decide, rfl, by decide, by decide, ?_⟩
  rw [packetReads_of_ok decode_hashPacket]
  intro g hg a ha
  obtain rfl : g = ⟨0x1000, 1⟩ := List.mem_singleton.1 hg
  have h1 : 0x1000 ≤ a := ha.1
  have h2 : a < 0x1000 + 1 := ha.2
  obtain rfl : a = 0x1000 := by omega
  decide

theorem witness_CommandsOnDisjointRegionsCommute :
    (withKey 0x1000 [5]).mem.wf = true ∧
    (∀ a, Within (packetWrites hashPacket) a →
      ¬Within (packetWrites hashPacket2) a ∧ ∀ g ∈ packetReads hashPacket2, ¬Within g a) ∧
    (∀ a, Within (packetWrites hashPacket2) a → ∀ g ∈ packetReads hashPacket, ¬Within g a) ∧
    Within (packetWrites hashPacket) 0x2003 ∧ Within (packetWrites hashPacket2) 0x2004 := by
  rw [packetWrites_of_ok decode_hashPacket, packetWrites_of_ok decode_hashPacket2, packetReads_of_ok decode_hashPacket,
    packetReads_of_ok decode_hashPacket2]
  have e1 : (keyRegion { a := 0x1000, len := 1, out := 0x2000 } : Region) = ⟨0x1000, 1⟩ := by decide
  have e2 : (keyRegion { a := 0x1000, len := 1, out := 0x2004 } : Region) = ⟨0x1000, 1⟩ := by decide
  have e3 : outRegion { a := 0x1000, len := 1, out := 0x2000 } 4 = ⟨0x2000, 4⟩ := by decide
  have e4 : outRegion { a := 0x1000, len := 1, out := 0x2004 } 4 = ⟨0x2004, 4⟩ := by decide
  simp only [readRegions, writeRegion, e1, e2, e3, e4, List.mem_singleton, forall_eq, Within]
  refine ⟨by decide, fun a ha => ?_, fun a ha => ?_, by decide, by decide⟩ <;> omega

/-- The last byte of the write region, and the first behind it. -/
theorem witness_CommandCutByReset :
    (queued [.commandCut 0 hashPacket]).mem.wf = true ∧
    (queued [.commandCut 0 hashPacket]).inputs = .commandCut 0 hashPacket :: [] ∧
    Within (packetWrites hashPacket) 0x2003 ∧ ¬Within (packetWrites hashPacket) 0x2004 := by
  rw [packetWrites_of_ok decode_hashPacket]
  refine ⟨rfl, rfl, ?_, ?_⟩ <;> simp only [Within] <;> decide

/-- A store at the last address that exists, outside the command's regions; one onto the key's byte; and a packet that fails. -/
theorem witness_CommandRacedByAnotherAgent :
    ((queued [.commandRaced 0 hashPacket [(0xffffffffffffffff, 1)]]).mem.wf = true ∧
      (queued [.commandRaced 0 hashPacket [(0xffffffffffffffff, 1)]]).inputs =
        .commandRaced 0 hashPacket [(0xffffffffffffffff, 1)] :: [] ∧
      (∀ c ∈ [((0xffffffffffffffff, 1) : Host.Cell)], c.1 < 2 ^ State.reset.cfg.aw) ∧
      ∀ c ∈ [((0xffffffffffffffff, 1) : Host.Cell)], inPacketRegions hashPacket c.1 = false) ∧
    (inPacketRegions hashPacket 0x1000 = true ∧ ∀ c ∈ [((0x1000, 1) : Host.Cell)], c.1 < 2 ^ State.reset.cfg.aw) ∧
    (stateOf (runPacket 0x0 State.reset)).status ≠ Status.ok.code := by
  simp only [List.mem_singleton, forall_eq]
  decide

/-- A command is waiting, and the step that takes it answers a next state. -/
theorem witness_EveryStepKeepsTheInvariant :
    (queued [.command 0 hashPacket]).Inv ∧ ∃ t, step (queued [.command 0 hashPacket]) = .next t := by
  refine ⟨⟨by decide, rfl, rfl, fun _ h => by cases h⟩, ?_⟩
  obtain ⟨t, ht, -⟩ := runPacket_frame hashPacket State.reset
  exact ⟨_, step_command (s := queued [.command 0 hashPacket]) rfl ht⟩

/-- A store at the last address that exists, outside the command's regions; the last byte of the write region and the first behind
it; and a packet that fails. -/
theorem witness_CommandRacedAndCutByReset :
    (queued [.commandRacedCut 0 hashPacket [(0xffffffffffffffff, 1)]]).mem.wf = true ∧
    (queued [.commandRacedCut 0 hashPacket [(0xffffffffffffffff, 1)]]).inputs =
      .commandRacedCut 0 hashPacket [(0xffffffffffffffff, 1)] :: [] ∧
    (∀ c ∈ [((0xffffffffffffffff, 1) : Host.Cell)], c.1 < 2 ^ State.reset.cfg.aw) ∧
    (∀ c ∈ [((0xffffffffffffffff, 1) : Host.Cell)], inPacketRegions hashPacket c.1 = false) ∧
    Within (packetWrites hashPacket) 0x2003 ∧ ¬Within (packetWrites hashPacket) 0x2004 ∧
    (stateOf (runPacket 0x0 State.reset)).status ≠ Status.ok.code := by
  have h := witness_CommandRacedByAnotherAgent
  exact ⟨rfl, rfl, h.1.2.2.1, h.1.2.2.2, witness_CommandCutByReset.2.2.1, witness_CommandCutByReset.2.2.2, h.2.2⟩

end Sys2Proof.Machine
end

section
/-! PROOFS. The statements of 10_state.md: what a command's response and writes depend on. -/
namespace Sys2Proof.Machine

/-- The same command, executed on memories that agree on its read regions, leaves the same bytes in its write region
(10_state.md R28). -/
theorem Effect.read_eq {i : Instr} {s t u v : State} (ht : Effect i s t) (hv : Effect i u v) (hs : s.mem.wf = true)
    (hu : u.mem.wf = true) (h : AgreeOn (readRegions i) s.mem u.mem) {a : Nat} (ha : Within (writeRegion i) a) :
    t.mem.read a = v.mem.read a :=
  read_eq_of_bytesAt (ht.digest hs) (hv.digest hu) (digestBytes_congr h) ha

/-- Settles O44: equal parameters give both runs the same verdict; a failure is the same for both, and the digest of a command
that executes depends on memory only through the read regions. -/
theorem equalPacketsGiveEqualResponses : Obligations.EqualPacketsGiveEqualResponses := by
  unfold Obligations.EqualPacketsGiveEqualResponses
  intro p s u hs hu hcfg hag
  rcases runPacket_of_cfg p s.cfg with ⟨st, hne, hfail⟩ | ⟨i, hi, hx⟩
  · have hnok : st.code ≠ Status.ok.code := Status.code_ne_ok hne
    exact ⟨_, _, hfail s rfl, hfail u hcfg.symm, rfl, rfl, fun e => absurd e hnok, fun e => absurd e hnok,
      fun _ => ⟨rfl, rfl⟩⟩
  · obtain ⟨t, ht, et⟩ := exec_effect hx
    obtain ⟨v, hv, ev⟩ := exec_effect (hcfg ▸ hx)
    rw [packetReads_of_ok hi] at hag
    rw [packetWrites_of_ok hi, runPacket_of_ok hi, runPacket_of_ok hi]
    exact ⟨t, v, ht, hv, et.status.trans ev.status.symm, et.res.trans ev.res.symm,
      fun _ a ha => et.read_eq ev hs hu hag ha, fun _ a ha => ⟨et.outside a ha, ev.outside a ha⟩,
      fun e => absurd et.status e⟩

end Sys2Proof.Machine
end

section
/-! PROOFS. The statements of 20_memory.md: words in memory are little-endian. -/
namespace Sys2Proof.Machine

/-! ### Words read (20_memory.md R40) -/

theorem toNat_read32 (m : Memory) (a : Nat) : (m.read32 a).toNat = m.memRead a 4 :=
  Nat.mod_eq_of_lt (Memory.memRead_lt m a 4)

theorem toNat_read64 (m : Memory) (a : Nat) : (m.read64 a).toNat = m.memRead a 8 :=
  Nat.mod_eq_of_lt (Memory.memRead_lt m a 8)

/-- Settles O42: a word loses nothing of the number read, and `MemRead` adds the bytes from the highest address down, each step
weighing what stands above by 256. -/
theorem readsAreLittleEndian : Obligations.ReadsAreLittleEndian := by
  unfold Obligations.ReadsAreLittleEndian
  intro m a
  rw [toNat_read32, toNat_read64]
  simp only [Memory.memRead, Nat.add_assoc, Nat.reduceAdd]
  constructor <;> omega

/-! ### Words written (20_memory.md R41) -/

/-- A word written, byte by byte: inside its bytes the word, outside nothing changed. -/
theorem read_memWrite_word {m : Memory} {w : Nat} (addr n : Nat) (v : BitVec w) (a : Nat) (h : m.wf = true) :
    (m.memWrite addr n v.toNat).read a =
      if addr ≤ a ∧ a < addr + n then v.extractLsb' (8 * (a - addr)) 8 else m.read a := by
  rw [Memory.read_memWrite _ _ _ _ h, ofNat_div_eq_extractLsb']

/-- A narrower read inside a wider write finds the value from byte `k` on, cut to the read's width. -/
theorem memRead_memWrite_inside {m : Memory} {addr n k l : Nat} (v : Nat) (h : m.wf = true) (hk : k + l ≤ n) :
    (m.memWrite addr n v).memRead (addr + k) l = v / 256 ^ k % 256 ^ l := by
  induction l generalizing k with
  | zero => rw [Memory.memRead, pow_zero, Nat.mod_one]
  | succ l ih =>
    calc (m.memWrite addr n v).memRead (addr + k) (l + 1)
        = v / 256 ^ k % 256 + 256 * (v / 256 ^ (k + 1) % 256 ^ l) := by
          rw [Memory.memRead, Memory.read_memWrite_inside v h (by omega), Nat.add_assoc, ih (by omega)]
          rfl
      _ = v / 256 ^ k % 256 ^ (l + 1) := by
          rw [pow_succ' 256 l, Nat.mod_mul, Nat.div_div_eq_div_mul, pow_succ]

/-- The 32-bit view of a 64-bit word just written: the four bytes from byte `k` on. -/
theorem read32_write64_inside {m : Memory} {addr k : Nat} (v : Word64) (h : m.wf = true) (hk : k + 4 ≤ 8) :
    (m.write64 addr v).read32 (addr + k) = v.extractLsb' (8 * k) 32 := by
  apply BitVec.eq_of_toNat_eq
  rw [toNat_read32, Memory.write64, memRead_memWrite_inside _ h hk, BitVec.extractLsb'_toNat, Nat.shiftRight_eq_div_pow,
    show 256 = 2 ^ 8 by rfl, ← pow_mul, ← pow_mul]

theorem read32_write64_outside {m : Memory} {addr a : Nat} (v : Word64) (ha : a + 4 ≤ addr ∨ addr + 8 ≤ a) :
    (m.write64 addr v).read32 a = m.read32 a :=
  congrArg (BitVec.ofNat 32) (Memory.memRead_congr fun _ _ => Memory.read_write64_outside v (by omega))

/-- Settles O43: each write is `MemWrite` of the word's number, and each 32-bit read lies inside one of the two 64-bit writes; the
reads of the first word pass the second write untouched. -/
theorem writesAreLittleEndian : Obligations.WritesAreLittleEndian := by
  unfold Obligations.WritesAreLittleEndian
  intro m a hm
  refine ⟨fun h x => read_memWrite_word a 4 h x hm, fun h x => read_memWrite_word a 8 h x hm, fun h1 h2 => ⟨?_, ?_, ?_, ?_⟩⟩
  · exact (read32_write64_outside h2 (by omega)).trans (read32_write64_inside (k := 0) h1 hm (by omega))
  · exact (read32_write64_outside h2 (by omega)).trans (read32_write64_inside (k := 4) h1 hm (by omega))
  · exact read32_write64_inside (k := 0) h2 (Memory.wf_write64 a h1 hm) (by omega)
  · exact read32_write64_inside (k := 4) h2 (Memory.wf_write64 a h1 hm) (by omega)

end Sys2Proof.Machine
end

section
/-! PROOFS. The statements of 30_encoding.md: packets, the opcode table, illegal words and responses. -/
namespace Sys2Proof

/-! ### The rows of the opcode table (30_encoding.md R61, R64) -/

theorem OpcodeRow.selects_iff {w : OpcodeRow} {cmd : BitVec 32} : w.selects cmd = true ↔ cmd &&& w.mask = w.pattern :=
  beq_iff_eq

/-- A row builds its command from all the fields of the packet. -/
theorem build_fields {w : OpcodeRow} (hw : w ∈ opcodeTable) (f : Fields) : (w.build f).fields = f := by
  simp only [opcodeTable, List.mem_cons, List.not_mem_nil, or_false] at hw
  rcases hw with rfl | rfl | rfl | rfl | rfl | rfl | rfl | rfl <;> rfl

/-- The match value of a row is the opcode of its command. -/
theorem pattern_eq_op {w : OpcodeRow} (hw : w ∈ opcodeTable) (f : Fields) : w.pattern = (w.build f).op.setWidth 32 := by
  simp only [opcodeTable, List.mem_cons, List.not_mem_nil, or_false] at hw
  rcases hw with rfl | rfl | rfl | rfl | rfl | rfl | rfl | rfl <;> rfl

/-- Every mask covers the reserved bits and, but for the rotations, the field `R`; the match values are zero there. -/
theorem mask_covers {w : OpcodeRow} (hw : w ∈ opcodeTable) :
    w.mask.extractLsb' 10 22 = BitVec.allOnes 22 ∧ w.pattern.extractLsb' 10 22 = 0 ∧
    (w.pattern ≠ 0x1 → w.pattern ≠ 0x2 → w.mask.extractLsb' 4 6 = BitVec.allOnes 6 ∧ w.pattern.extractLsb' 4 6 = 0) := by
  revert w
  decide

/-! ### What decodes and what does not (30_encoding.md R65, R66) -/

/-- A row selects a packet exactly when the packet decodes to the row's command. -/
theorem selects_iff_decode {w : OpcodeRow} (hw : w ∈ opcodeTable) (p : Packet) :
    w.selects p.cmd = true ↔ decode p = .ok (w.build p.fields) := by
  rw [row_selects hw, decode_eq_ok, build_fields hw]
  simp only [true_and]

/-- A row decides, or none does: the search through the table finds a row that selects the packet, or every row refuses it. -/
theorem decode_cases (p : Packet) :
    (∃ w ∈ opcodeTable, decode p = .ok (w.build p.fields)) ∨
    ((∀ w ∈ opcodeTable, ¬w.selects p.cmd = true) ∧ ∃ e, decode p = .error e) := by
  rw [decode]
  cases h : opcodeTable.find? (·.selects p.cmd) with
  | some w => exact .inl ⟨w, List.mem_of_find?_eq_some h, rfl⟩
  | none => exact .inr ⟨List.find?_eq_none.1 h, _, rfl⟩

/-- The reserved bits of a packet are those of its command word. -/
theorem extractLsb'_cmd_eq_reserved (p : Packet) : p.cmd.extractLsb' 10 22 = p.reserved := by
  rw [Packet.cmd_eq, BitVec.append_assoc]
  exact BitVec.extractLsb'_append_eq_left

/-- Which opcodes and operand fields make no command when the reserved bits are 0: in each branch of the decoder the opcode
and `R` decide whether there is a command, and whether the word is on R65's list. -/
theorem commandOf_eq_error {op : BitVec 4} {f : Fields} : (∃ e, commandOf op f = .error e) ↔
    op = 0x0 ∨ 0x9 ≤ op ∨ (0x3 ≤ op ∧ op ≤ 0x8 ∧ f.r ≠ 0) ∨ (op = 0x1 ∧ 32 ≤ f.r.toNat) := by
  unfold commandOf
  split_ifs <;>
    simp only [exists_false, Except.error.injEq, exists_eq', true_iff, false_iff] <;> bv_omega

/-- Which packets do not decode (30_encoding.md R65). -/
theorem decode_eq_error {p : Packet} : (∃ e, decode p = .error e) ↔
    p.reserved ≠ 0 ∨ ∃ e, commandOf p.op p.fields = .error e := by
  rw [decode_eq]
  by_cases h : p.reserved = 0
  · rw [if_pos h]
    exact (or_iff_right (not_not.2 h)).symm
  · rw [if_neg h]
    exact iff_of_true ⟨_, rfl⟩ (.inl h)

/-- A packet that decodes is the encoding of its command. -/
theorem encode_eq_of_decode {p : Packet} {i : Instr} (h : decode p = .ok i) : encode i = p := by
  obtain ⟨hr, ho, hf, -⟩ := decode_eq_ok.1 h
  exact (eq_encode hr ho hf).symm

end Sys2Proof

namespace Sys2Proof.Machine

/-- Settles O7: a row's test and decoding to its command are both the same condition, zero reserved bits with the row's opcode and
a field `R` it allows; the masks are read off the table. -/
theorem commandWordAloneSelects : Obligations.CommandWordAloneSelects := by
  unfold Obligations.CommandWordAloneSelects
  intro w hw
  exact ⟨fun p => OpcodeRow.selects_iff.symm.trans (selects_iff_decode hw p), mask_covers hw⟩

/-- Settles O8: two rows that select one packet both give the command it decodes to, and a row's match value is its command's
opcode. -/
theorem everyPacketIsOneCommandOrIllegal : Obligations.EveryPacketIsOneCommandOrIllegal := by
  unfold Obligations.EveryPacketIsOneCommandOrIllegal
  intro p
  refine ⟨?_, fun ⟨⟨i, hi⟩, e, he⟩ => nomatch hi.symm.trans he⟩
  rcases decode_cases p with ⟨w, hw, hd⟩ | ⟨hnone, he⟩
  · refine .inl ⟨w, hw, hd, fun w' hw' hs => ?_⟩
    have hd' : decode p = .ok (w'.build p.fields) := (selects_iff_decode hw' p).1 (OpcodeRow.selects_iff.2 hs)
    have hb : w'.build p.fields = w.build p.fields := Except.ok.inj (hd'.symm.trans hd)
    rw [pattern_eq_op hw' p.fields, pattern_eq_op hw p.fields, hb]
  · exact .inr ⟨fun w hw hs => hnone w hw (OpcodeRow.selects_iff.2 hs), he⟩

/-- Settles O9: the decoder refuses on the reserved bits, or on the opcode with its field `R`; a packet it refuses is rejected. -/
theorem illegalPacketsFail : Obligations.IllegalPacketsFail := by
  unfold Obligations.IllegalPacketsFail
  intro p
  constructor
  · rw [decode_eq_error, commandOf_eq_error, extractLsb'_cmd_eq_reserved]
    tauto
  · rintro ⟨e, he⟩ s
    exact ⟨_, runPacket_of_error he s, rfl, rfl, rfl, rfl, rfl, rfl⟩

/-- How a packet ends, for the response: a failing status with `RES` 0, or `OK` with the result of the decoded command. -/
theorem runPacket_result (p : Packet) (s : State) : ∃ u, runPacket p s = .next u ∧ u.inputs = s.inputs ∧
    u.responses = s.responses ∧ ((∃ st : Status, st ≠ .ok ∧ u.status = st.code ∧ u.res = 0) ∨
      ∃ i, decode p = .ok i ∧ u.status = Status.ok.code ∧ u.res = resultOf i) := by
  rcases runPacket_of_cfg p s.cfg with ⟨st, hne, h⟩ | ⟨i, hi, hx⟩
  · exact ⟨_, h s rfl, rfl, rfl, .inl ⟨st, hne, rfl, rfl⟩⟩
  · obtain ⟨t, ht, he⟩ := exec_effect hx
    exact ⟨t, (runPacket_of_ok hi s).trans ht, he.inputs, he.responses, .inr ⟨i, hi, he.status, he.res⟩⟩

/-- Settles O15: the response sent is made of the response registers the packet leaves. -/
theorem exactlyOneResponsePerCommand : Obligations.ExactlyOneResponsePerCommand := by
  unfold Obligations.ExactlyOneResponsePerCommand
  intro s host p rest hin
  obtain ⟨u, hu, hinp, hresp, hres⟩ := runPacket_result p { s with inputs := rest }
  refine ⟨u.deliver host, u, responsePacket u.status u.res, hu, step_command hin hu, hinp, ?_,
    responsePacket_status .., ?_, responsePacket_zero .., responsePacket_res .., ?_⟩
  · rw [State.deliver_responses, hresp]
  · rcases hres with ⟨st, -, hst, -⟩ | ⟨i, -, hst, -⟩
    · exact ⟨st, hst⟩
    · exact ⟨.ok, hst⟩
  · rcases hres with ⟨st, hne, hst, h0⟩ | ⟨i, hi, hst, hr⟩
    · exact ⟨fun _ => h0, fun _ _ hok => absurd (hst.symm.trans hok) (Status.code_ne_ok hne)⟩
    · refine ⟨fun hn => absurd hst hn, fun j hj _ => ?_⟩
      rw [hr, Except.ok.inj (hi.symm.trans hj)]

/-- Settles O6: a packet decodes to a command with its own opcode and fields, which are its bits by definition. -/
theorem packetFieldsAreAtTheirBits : Obligations.PacketFieldsAreAtTheirBits := by
  unfold Obligations.PacketFieldsAreAtTheirBits
  intro p i h
  obtain ⟨hr, ho, hf, -⟩ := decode_eq_ok.1 h
  rw [ho, hf]
  exact ⟨rfl, rfl, hr, rfl, rfl, rfl, rfl, rfl, rfl⟩

/-- Settles O12: the two packets decode as written, and what decodes is the encoding of its command. -/
theorem encodingExamples : Obligations.EncodingExamples := by
  unfold Obligations.EncodingExamples
  have hash : decode 0x000000000000200000000000000000000000000000001000000000000000000d000004d200000005 =
      .ok (.hashX86_32 { seed := 1234, len := 13, a := 0x1000, out := 0x2000 }) := by decide
  have rotate : decode 0x00000000000000000000000000000000000000008000000100000000000000000000000000000041 =
      .ok (.rotl32 { a := 0x80000001, r := 4 }) := by decide
  exact ⟨hash, encode_eq_of_decode hash, rotate, encode_eq_of_decode rotate⟩

end Sys2Proof.Machine
end

section
/-! PROOFS. The statements of 40_rotate.md about `rotl`: where each bit goes, and the laws of R85. Bit numbers and amounts are
taken in `Fin w`, where counting around the word is the group's addition and subtraction. -/
namespace Sys2Proof.Machine

/-! ### The bits of a rotation (40_rotate.md R80) -/

/-- Bit `j` of the rotation is bit `j - r`, counted around the word. -/
theorem getLsbD_rotl_fin {w : Nat} (x : BitVec w) (r j : Fin w) : (rotl x r).getLsbD j = x.getLsbD (j - r : Fin w) := by
  rw [getLsbD_rotl x r j.isLt, Fin.val_sub, Nat.add_comm]

/-- Two words with equal bits at every place are equal. -/
theorem eq_of_getLsbD_fin_eq {w : Nat} {x y : BitVec w} (h : ∀ j : Fin w, x.getLsbD j = y.getLsbD j) : x = y :=
  BitVec.eq_of_getLsbD_eq fun j hj => h ⟨j, hj⟩

/-- The list of the rotation's bits is the word's list of bits rotated, so that none is lost and none created. -/
theorem map_getLsbD_rotl {w : Nat} (x : BitVec w) (r : Fin w) :
    (List.range w).map (rotl x r).getLsbD = ((List.range w).map x.getLsbD).rotate (w - r.val) := by
  refine List.ext_getElem (by simp) fun j hj _ => ?_
  have hj : j < w := by simpa using hj
  simp [List.getElem_rotate, getLsbD_rotl x r hj]

/-! ### The laws (40_rotate.md R85) -/

/-- A rotation by no place is the word itself (40_rotate.md R84). -/
theorem rotl_zero {w : Nat} [NeZero w] (x : BitVec w) : rotl x 0 = x :=
  eq_of_getLsbD_fin_eq fun j => by rw [getLsbD_rotl_fin, sub_zero]

theorem rotl_rotl {w : Nat} [NeZero w] (x : BitVec w) (r s : Fin w) : rotl (rotl x r) s = rotl x (r + s) :=
  eq_of_getLsbD_fin_eq fun j => by simp only [getLsbD_rotl_fin, sub_sub, add_comm]

theorem rotl_rotl_neg {w : Nat} [NeZero w] (x : BitVec w) (r : Fin w) : rotl (rotl x r) (-r) = x := by
  rw [rotl_rotl, add_neg_cancel, rotl_zero]

theorem rotl_neg_rotl {w : Nat} [NeZero w] (x : BitVec w) (r : Fin w) : rotl (rotl x (-r)) r = x := by
  rw [rotl_rotl, neg_add_cancel, rotl_zero]

theorem rotl_bijective {w : Nat} [NeZero w] (r : Fin w) : Function.Bijective (fun x : BitVec w => rotl x r) :=
  Function.bijective_iff_has_inverse.2 ⟨fun x => rotl x (-r), fun x => rotl_rotl_neg x r, fun x => rotl_neg_rotl x r⟩

theorem rotl_xor {w : Nat} (x y : BitVec w) (r : Fin w) : rotl (x ^^^ y) r = rotl x r ^^^ rotl y r :=
  eq_of_getLsbD_fin_eq fun j => by simp only [getLsbD_rotl_fin, BitVec.getLsbD_xor]

theorem zero_rotl {w : Nat} (r : Fin w) : rotl (0 : BitVec w) r = 0 :=
  eq_of_getLsbD_fin_eq fun j => by rw [getLsbD_rotl_fin, BitVec.ofNat_eq_ofNat, BitVec.getLsbD_zero, BitVec.getLsbD_zero]

theorem allOnes_rotl {w : Nat} (r : Fin w) : rotl (BitVec.allOnes w) r = BitVec.allOnes w :=
  eq_of_getLsbD_fin_eq fun j => by
    rw [getLsbD_rotl_fin, BitVec.getLsbD_allOnes, BitVec.getLsbD_allOnes, decide_eq_true j.isLt, decide_eq_true (j - r).isLt]

/-- The number of one bits is kept: a rotated list is a permutation of the list. -/
theorem countP_getLsbD_rotl {w : Nat} (x : BitVec w) (r : Fin w) :
    (List.range w).countP (rotl x r).getLsbD = (List.range w).countP x.getLsbD := by
  have ones (y : BitVec w) : (List.range w).countP y.getLsbD = ((List.range w).map y.getLsbD).countP id := by
    rw [List.countP_map, Function.id_comp]
  rw [ones, ones, map_getLsbD_rotl]
  exact (List.rotate_perm _ _).countP_eq id

/-- Settles O21: bit `i + r` of the rotation is bit `(i + r) - r` of the word; the two shifts are the definition. -/
theorem rotationMovesEachBit : Obligations.RotationMovesEachBit := by
  unfold Obligations.RotationMovesEachBit
  intro w x r
  refine ⟨rfl, fun i hi => ?_⟩
  have : NeZero w := .of_pos r.pos
  have moved := getLsbD_rotl_fin x r (⟨i, hi⟩ + r)
  rwa [add_sub_cancel_right, Fin.val_add] at moved

/-- Settles O22: the amounts `(r + s) mod w` and `(w - r) mod w` are the sum and the negative in `Fin w`, and the laws are those
above. -/
theorem rotationLaws : Obligations.RotationLaws := by
  unfold Obligations.RotationLaws
  intro w r s
  have : NeZero w := .of_pos r.pos
  exact ⟨fun x => rotl_rotl x r s, rotl_bijective r, fun x => rotl_rotl_neg x r, fun x y => rotl_xor x y r, zero_rotl r,
    allOnes_rotl r, fun x => countP_getLsbD_rotl x r⟩

end Sys2Proof.Machine
end

section
/-! PROOFS. The statements of 41_fmix.md: the finalization mix. -/
namespace Sys2Proof.Machine

/-- The mix step by step with each multiplier on the right, as R90 and R91 write it; `avalanche` has it on the left. -/
theorem avalanche_eq_steps {w : Nat} (p q r : Nat) (c d h : BitVec w) : avalanche p q r c d h =
    (let h := h ^^^ (h >>> p)
     let h := h * c
     let h := h ^^^ (h >>> q)
     let h := h * d
     h ^^^ (h >>> r)) := by
  simp only [avalanche, BitVec.mul_comm c, BitVec.mul_comm d]

/-- Settles O25: both functions are the one mix at their own width, amounts and multipliers; the worked examples are computed. -/
theorem fmixSteps : Obligations.FmixSteps := by
  unfold Obligations.FmixSteps
  refine ⟨fun h => ?_, by decide, fun k => ?_, by decide⟩
  · rw [fmix32_eq, avalanche32, avalanche_eq_steps]
  · rw [fmix64_eq, avalanche64, avalanche_eq_steps]

end Sys2Proof.Machine
end

section
/-! PROOFS. How a command fails, for every family: a bit among the 28 above the opcode, or a check that does not pass. -/
namespace Sys2Proof

/-- The 28 bits above the opcode are the reserved bits and `R` (30_encoding.md R60, R61). -/
theorem extractLsb'_cmd_eq_reserved_append_r (p : Packet) : p.cmd.extractLsb' 4 28 = p.reserved ++ p.fields.r := by
  rw [Packet.cmd_eq]
  exact BitVec.extractLsb'_append_eq_left

end Sys2Proof

namespace Sys2Proof.Machine

theorem failed_accept_fail (op : BitVec 4) (f : Fields) (st : Status) (s : State) :
    Failed st s ((s.accept op f).fail st) :=
  ⟨rfl, rfl, rfl, rfl, rfl, rfl⟩

/-- The command word of opcodes 3 to 8 holds nothing but the opcode: with any other bit set the reserved bits or `R` are not 0, and
the packet is illegal (30_encoding.md R65). -/
theorem runPacket_fails_of_bit_above_op {p : Packet} (hlo : 0x3 ≤ p.op) (hhi : p.op ≤ 0x8) (hb : p.cmd.extractLsb' 4 28 ≠ 0)
    (s : State) : ∃ t, runPacket p s = .next t ∧ Failed .errIllegal s t := by
  have hne : p.reserved ≠ 0 ∨ p.fields.r ≠ 0 := by
    by_contra! h
    obtain ⟨hres, hr⟩ := h
    rw [extractLsb'_cmd_eq_reserved_append_r, hres, hr] at hb
    exact hb rfl
  have hd : ∃ e, decode p = .error e := by
    rw [decode_eq_error, commandOf_eq_error]
    exact hne.imp_right fun hr => .inr (.inr (.inl ⟨hlo, hhi, hr⟩))
  exact (illegalPacketsFail p).2 hd s

/-- A command whose verdict is not OK has failed with it (60_exceptions.md R193 to R195). -/
theorem exec_fails {i : Instr} {s : State} {st : Status} (h : Verdict i s.cfg st) (hne : st ≠ .ok) :
    ∃ t, exec i s = .next t ∧ Failed st s t :=
  ⟨_, exec_of_verdict_ne_ok h hne, failed_accept_fail ..⟩

end Sys2Proof.Machine
end

section
/-! PROOFS. The statements of 42_hash_x86_32.md: the key-word mixes of all units, and HASH_X86_32 as a whole. -/
namespace Sys2Proof.Machine

/-- The mix with each multiplier on the right, as R102, R122 and R142 are stated; `mixWord` has it on the left. -/
theorem mixWord_eq_steps {w : Nat} (c : BitVec w) (r : Nat) (d k : BitVec w) :
    mixWord c r d k = (k * c).rotateLeft r * d := by
  rw [mixWord, BitVec.mul_comm d, BitVec.mul_comm c]

/-- Settles O29: each of the seven is the one mix `mixWord` at its own constants and amount, and `mixWord` maps 0 to 0. -/
theorem keyWordMixes : Obligations.KeyWordMixes := by
  unfold Obligations.KeyWordMixes
  simp only [mix32_eq, mix1_128_eq, mix2_128_eq, mix3_128_eq, mix4_128_eq, mix1_64_eq, mix2_64_eq]
  refine ⟨fun k => ?_, fun k => ?_, ?_⟩
  · simp only [mixWord_eq_steps, and_self]
  · simp only [mixWord_eq_steps, and_self]
  · simp only [mixWord_zero, and_self]

/-- Settles O30: a bit above the opcode makes the packet illegal, a failing verdict is the command's answer, and a command that
passes its checks has its effect, which is the digest at `OUT` and nothing outside it. -/
theorem hashX86_32Command : Obligations.HashX86_32Command := by
  unfold Obligations.HashX86_32Command
  refine ⟨fun p s hop hb => ?_, fun f s => ⟨fun st hv hne => exec_fails hv hne, fun hm hx => ?_⟩⟩
  · exact runPacket_fails_of_bit_above_op (by rw [hop]; decide) (by rw [hop]; decide) hb s
  · obtain ⟨t, ht, he⟩ := exec_effect hx
    exact ⟨t, ht, he.status, he.res, he.digest hm, he.outside⟩

end Sys2Proof.Machine
end

section
/-! PROOFS. What a HASH command that executes has done, and the statement of 43_hash_x86_128.md: HASH_X86_128 as a whole. -/
namespace Sys2Proof.Machine

/-- Only the leaf commands answer a result (30_encoding.md R63). -/
theorem resultOf_of_not_leaf {i : Instr} (hi : ¬Leaf i) : resultOf i = 0 := by
  cases i with
  | rotl32 | rotl64 | fmix32 | fmix64 => exact absurd trivial hi
  | hashX86_32 | hashX86_128 | hashX64_128 | hashX64_128_x16 => rfl

/-- A HASH command that passes its checks answers OK with `RES` 0, has its digest in its write region and has written nothing
else (60_exceptions.md R193, step 6). -/
theorem exec_writes_digest {i : Instr} {s : State} (hi : ¬Leaf i) (hm : s.mem.wf = true) (hx : Executes i s.cfg) :
    ∃ t, exec i s = .next t ∧ t.status = Status.ok.code ∧ t.res = 0 ∧
      bytesAt t.mem (writeRegion i).base (writeRegion i).size = digestBytes s.mem i ∧
      ∀ a, ¬Within (writeRegion i) a → t.mem.read a = s.mem.read a := by
  obtain ⟨t, ht, he⟩ := exec_effect hx
  exact ⟨t, ht, he.status, he.res.trans (resultOf_of_not_leaf hi), he.digest hm, he.outside⟩

/-- Settles O31: a bit above the opcode makes the packet illegal, a failing verdict is the command's answer, and a command that
passes its checks writes its digest, which for this opcode is the four words of `digestX86_128`, to the 16 bytes at `OUT`. -/
theorem hashX86_128Command : Obligations.HashX86_128Command := by
  unfold Obligations.HashX86_128Command
  refine ⟨fun p s hop hb => ?_, fun f s => ⟨fun st hv hne => exec_fails hv hne, fun hm hx => ?_⟩⟩
  · exact runPacket_fails_of_bit_above_op (by rw [hop]; decide) (by rw [hop]; decide) hb s
  · exact exec_writes_digest id hm hx

end Sys2Proof.Machine
end

section
/-! PROOFS. The statements of 44_hash_x64_128.md: the block step and the finalization, and HASH_X64_128 as a whole. -/
namespace Sys2Proof.Machine

/-- What a block step does to a state word once its key word is in: the unit's form `n + 5 * (...)` is the rotation, the addition
and the last step of R144 one after another. -/
theorem add_mul_rotl_add_eq_steps {w : Nat} (n c x y : BitVec w) (r : Fin w) : n + c * (rotl x r + y) =
    (let x := x.rotateLeft r.val
     let x := x + y
     x * c + n) := by
  simp only [rotl_eq_rotateLeft, BitVec.add_comm n, BitVec.mul_comm c]

/-- Settles O34: each half of the block step is the steps above, the second with the first's result as its other word; the
finalization is written assignment by assignment in the model. -/
theorem x64BlockStepAndFinalization : Obligations.X64BlockStepAndFinalization := by
  unfold Obligations.X64BlockStepAndFinalization
  refine ⟨fun h1 h2 k1 k2 => ?_, fun h1 h2 len => rfl⟩
  simp only [block64, add_mul_rotl_add_eq_steps]
  rfl

/-- Settles O32: a bit above the opcode makes the packet illegal, a failing verdict is the command's answer, and a command that
passes its checks writes its digest, which for this opcode is the two words of `digestX64_128`, to the 16 bytes at `OUT`. -/
theorem hashX64_128Command : Obligations.HashX64_128Command := by
  unfold Obligations.HashX64_128Command
  refine ⟨fun p s hop hb => ?_, fun f s => ⟨fun _ => exec_fails, exec_writes_digest id⟩⟩
  exact runPacket_fails_of_bit_above_op (by rw [hop]; decide) (by rw [hop]; decide) hb s

end Sys2Proof.Machine
end

section
/-! PROOFS. The statements of 45_hash_x64_128_x16.md: HASH_X64_128_X16 as a whole, and that its digests are the scalar ones. -/
namespace Sys2Proof.Machine

/-! ### The sixteen digests in memory (45_hash_x64_128_x16.md R169) -/

theorem length_pairBytes (h : Word64 × Word64) : (pairBytes h).length = 16 := by
  simp [pairBytes]

/-- Where memory holds pieces of `k` bytes one after another, piece `i` lies at `base + k * i`. -/
theorem bytesAt_piece_of_flatMap {m : Memory} {base k n i : Nat} {piece : Nat → List Byte}
    (hlen : ∀ j, (piece j).length = k) (h : bytesAt m base (k * n) = (List.range n).flatMap piece) (hi : i < n) :
    bytesAt m (base + k * i) k = piece i := by
  induction n with
  | zero => exact absurd hi (Nat.not_lt_zero i)
  | succ n ih =>
    rw [Nat.mul_succ, bytesAt_append, List.range_succ, List.flatMap_append, List.flatMap_singleton] at h
    obtain ⟨hinit, hlast⟩ := List.append_inj' h (by rw [length_bytesAt, hlen])
    rcases Nat.lt_succ_iff_lt_or_eq.1 hi with hlt | rfl
    · exact ih hinit hlt
    · exact hlast

/-- Settles O33: a bit above the opcode makes the packet illegal, a failing verdict is the command's answer, and a command that
passes its checks writes its digest, which for this opcode is sixteen pieces of 16 bytes, to the 256 bytes at `OUT`. -/
theorem hashX64_128_x16Command : Obligations.HashX64_128_x16Command := by
  unfold Obligations.HashX64_128_x16Command
  refine ⟨fun p s hop hb => ?_, fun f s => ⟨fun _ => exec_fails, fun hm hx => ?_⟩⟩
  · exact runPacket_fails_of_bit_above_op (by rw [hop]; decide) (by rw [hop]; decide) hb s
  · obtain ⟨t, ht, hst, hres, hdigest, hout⟩ := exec_writes_digest id hm hx
    exact ⟨t, ht, hst, hres, fun _ => bytesAt_piece_of_flatMap (n := 16) (fun _ => length_pairBytes _) hdigest, hout⟩

/-! ### The scalar digests (45_hash_x64_128_x16.md R176) -/

/-- Settles O36: on a lane laid out by the host's contract the batch writes the scalar digest of the lane's key, and a scalar
command on that key writes the same digest, wherever it reads the key. -/
theorem batchEqualsSixteenScalarDigests : Obligations.BatchEqualsSixteenScalarDigests := by
  unfold Obligations.BatchEqualsSixteenScalarDigests
  intro f s keys hm hx hkeys
  obtain ⟨t, ht, -, -, hbatch, -⟩ := (hashX64_128_x16Command.2 f s).2 hm hx
  refine ⟨t, ht, fun n hn g s' t' hm' hx' hseed _ hkey ht' => ?_⟩
  obtain ⟨hlen, hlaid⟩ := hkeys n hn
  obtain ⟨u, hu, -, -, hscalar, -⟩ := (hashX64_128Command.2 g s').2 hm' hx'
  obtain rfl : t' = u := Host.Outcome.next.inj (ht'.symm.trans hu)
  calc bytesAt t.mem (f.out.toNat + 16 * n) 16
      = pairBytes (batchDigest s.mem f n) := hbatch n hn
    _ = pairBytes (digestX64_128 f.seed (keys n)) := by
        rw [batchDigest, digestLane_eq_digestX64_128 f.seed hlen hlaid]
    _ = bytesAt t'.mem g.out.toNat 16 := by rw [hscalar, hkey, hseed]

end Sys2Proof.Machine
end

section
/-! PROOFS. The statements of 60_exceptions.md: the check order, checks before effects, and failed commands. -/
namespace Sys2Proof.Machine

/-! ### The check order (60_exceptions.md R193) -/

/-- The verdict on a command is the status it answers. -/
theorem exec_status {i : Instr} {s t : State} {st : Status} (hv : Verdict i s.cfg st) (ht : exec i s = .next t) :
    t.status = st.code := by
  by_cases hok : st = .ok
  · subst hok
    obtain ⟨t', ht', he⟩ := exec_effect hv
    obtain rfl : t = t' := Host.Outcome.next.inj (ht.symm.trans ht')
    exact he.status
  · obtain ⟨t', ht', hf⟩ := exec_fails hv hok
    obtain rfl : t = t' := Host.Outcome.next.inj (ht.symm.trans ht')
    exact hf.status

/-- With `LEN < 2^31` there are fewer than `2^27` full blocks of 16 bytes, so that the slots of a batch, the extra block's two
included, are at most `2^28`. -/
theorem nslots_le {f : Fields} (h : f.len.toNat < 2 ^ 31) : nslots f ≤ 2 ^ 28 := by
  unfold nslots nblocks
  split <;> omega

/-- The bound that R193 gives for a read region: a key is shorter than `2^31` bytes, and a slot has 64 bytes. -/
theorem size_le_of_lengthsLegal {i : Instr} (h : LengthsLegal i) {g : Region} (hg : g ∈ readRegions i) : g.size ≤ 2 ^ 34 := by
  cases i with
  | rotl32 | rotl64 | fmix32 | fmix64 => cases hg
  | hashX86_32 f | hashX86_128 f | hashX64_128 f =>
    have hlen : f.len.toNat < 2 ^ 31 := h
    have hsize : g.size = f.len.toNat := congrArg Region.size (List.mem_singleton.1 hg)
    omega
  | hashX64_128_x16 f =>
    have hslots : nslots f ≤ 2 ^ 28 := nslots_le h.1
    have hsize : g.size = 64 * nslots f := by
      simp only [readRegions, slotRegions, List.mem_cons, List.not_mem_nil, or_false] at hg
      rcases hg with rfl | rfl <;> rfl
    omega

/-- Settles O18: a packet that no row selects does not decode and is rejected; a decoded command is well-formed, and the conditions
of each clause make its status the verdict. -/
theorem firstFailingCheckDecides : Obligations.FirstFailingCheckDecides := by
  unfold Obligations.FirstFailingCheckDecides
  intro p s
  obtain ⟨t, ht, -⟩ := runPacket_frame p s
  refine ⟨t, ht, fun hnone => ?_, fun i hi => ?_⟩
  · rcases decode_cases p with ⟨w, hw, hd⟩ | ⟨-, he⟩
    · exact absurd (((commandWordAloneSelects w hw).1 p).2 hd) (hnone w hw)
    · obtain ⟨t', ht', hf⟩ := (illegalPacketsFail p).2 he s
      obtain rfl : t = t' := Host.Outcome.next.inj (ht.symm.trans ht')
      exact hf.status
  · obtain ⟨-, -, -, hwf⟩ := decode_eq_ok.1 hi
    have answers (st : Status) (hv : Verdict i s.cfg st) : t.status = st.code :=
      exec_status hv ((runPacket_of_ok hi s).symm.trans ht)
    refine ⟨fun hl => answers .ok ⟨hwf, .inl hl⟩, fun hl => ⟨fun h2 => answers .errLen ⟨hwf, hl, h2⟩, fun h2 => ?_⟩⟩
    refine ⟨fun _ => size_le_of_lengthsLegal h2, fun h3 => answers .errAddr ⟨hwf, hl, h2, h3⟩, fun h3 => ?_⟩
    refine ⟨fun h4 => answers .errRead ⟨hwf, hl, h2, h3, h4⟩, fun h4 => ?_⟩
    exact ⟨fun h5 => answers .errWrite ⟨hwf, hl, h2, h3, h4, h5⟩, fun h5 => answers .ok ⟨hwf, .inr ⟨h2, h3, h4, h5⟩⟩⟩

/-! ### A command that fails (60_exceptions.md R194, R195) -/

/-- A packet that fails from one state fails with the same status from every state with these parameters, whatever is in memory
and in the registers. -/
theorem failed_of_status_ne_ok {p : Packet} {s t : State} (ht : runPacket p s = .next t) (hne : t.status ≠ Status.ok.code) :
    ∃ st, Failed st s t ∧ ∀ u : State, u.cfg = s.cfg → ∃ v, runPacket p u = .next v ∧ Failed st u v := by
  rcases runPacket_of_cfg p s.cfg with ⟨st, -, hfail⟩ | ⟨i, hi, hx⟩
  · obtain rfl := Host.Outcome.next.inj (ht.symm.trans (hfail s rfl))
    exact ⟨st, failed_accept_fail .., fun u hu => ⟨_, hfail u hu, failed_accept_fail ..⟩⟩
  · exact absurd (exec_status (st := .ok) hx ((runPacket_of_ok hi s).symm.trans ht)) hne

/-- Settles O19: the failure is the same from every memory, and a failed command has changed none. -/
theorem checksComeBeforeEffects : Obligations.ChecksComeBeforeEffects := by
  unfold Obligations.ChecksComeBeforeEffects
  intro p s t ht hne
  obtain ⟨st, hf, hall⟩ := failed_of_status_ne_ok ht hne
  refine ⟨hf.mem, hf.cfg, hf.inputs, hf.responses, fun m => ?_⟩
  obtain ⟨u, hu, hfu⟩ := hall { s with mem := m } rfl
  exact ⟨u, hu, hfu.status.trans hf.status.symm, hfu.mem⟩

/-! ### What a command finds in the registers does not matter (10_state.md R20, R28) -/

/-- What a packet that has run has kept: the parameters, both ports and the form of memory. -/
theorem kept_of_runPacket {p : Packet} {s t : State} (ht : runPacket p s = .next t) :
    t.cfg = s.cfg ∧ t.inputs = s.inputs ∧ t.responses = s.responses ∧ (s.mem.wf = true → t.mem.wf = true) := by
  obtain ⟨t', ht', hcfg, hinp, hresp, hwf, -⟩ := runPacket_frame p s
  obtain rfl : t = t' := Host.Outcome.next.inj (ht.symm.trans ht')
  exact ⟨hcfg, hinp, hresp, hwf⟩

/-- From two states with equal memory and parameters a packet leaves equal memory and parameters and gives the same response:
memory in canonical form is its bytes, and these agree inside the write region and outside. -/
theorem runPacket_congr (p : Packet) {s u : State} (hm : s.mem.wf = true) (hmem : s.mem = u.mem) (hcfg : s.cfg = u.cfg) :
    ∃ t v, runPacket p s = .next t ∧ runPacket p u = .next v ∧ t.mem = v.mem ∧ t.cfg = v.cfg ∧ t.status = v.status ∧
      t.res = v.res := by
  have hmu : u.mem.wf = true := hmem ▸ hm
  obtain ⟨t, v, ht, hv, hst, hres, hin, hout, hfail⟩ :=
    equalPacketsGiveEqualResponses p s u hm hmu hcfg fun _ _ a _ => congrArg (Memory.read · a) hmem
  obtain ⟨hct, -, -, hwt⟩ := kept_of_runPacket ht
  obtain ⟨hcv, -, -, hwv⟩ := kept_of_runPacket hv
  refine ⟨t, v, ht, hv, ?_, hct.trans (hcfg.trans hcv.symm), hst, hres⟩
  by_cases hok : t.status = Status.ok.code
  · refine Memory.ext (hwt hm) (hwv hmu) fun a => ?_
    by_cases ha : Within (packetWrites p) a
    · exact hin hok a ha
    · obtain ⟨hs, hu⟩ := hout hok a ha
      rw [hs, hu, hmem]
  · obtain ⟨hs, hu⟩ := hfail hok
    rw [hs, hu, hmem]

/-- A step that takes a command leaves the same memory and sends the same response from two states with equal memory, parameters
and inputs. -/
theorem step_command_congr {s u : State} {host : Nat} {p : Packet} {rest : List Input} (hm : s.mem.wf = true)
    (hmem : s.mem = u.mem) (hcfg : s.cfg = u.cfg) (hs : s.inputs = .command host p :: rest)
    (hu : u.inputs = .command host p :: rest) :
    ∃ t v q, step s = .next t ∧ step u = .next v ∧ t.mem = v.mem ∧ t.cfg = v.cfg ∧ t.inputs = v.inputs ∧
      t.responses = s.responses ++ [⟨host, q⟩] ∧ v.responses = u.responses ++ [⟨host, q⟩] := by
  obtain ⟨t, v, ht, hv, hmem', hcfg', hst, hres⟩ :=
    runPacket_congr p (s := { s with inputs := rest }) (u := { u with inputs := rest }) hm hmem hcfg
  obtain ⟨-, hit, hrt, -⟩ := kept_of_runPacket ht
  obtain ⟨-, hiv, hrv, -⟩ := kept_of_runPacket hv
  refine ⟨t.deliver host, v.deliver host, responsePacket t.status t.res, step_command hs ht, step_command hu hv, hmem', hcfg',
    hit.trans hiv.symm, ?_, ?_⟩
  · rw [State.deliver_responses, hrt]
  · rw [State.deliver_responses, hrv, hst, hres]

/-- Settles O20: a failed command is answered and leaves memory, parameters and the inputs behind it as they were, and these are
all that the next command depends on. -/
theorem failedCommandLeavesNoTrace : Obligations.FailedCommandLeavesNoTrace := by
  unfold Obligations.FailedCommandLeavesNoTrace
  intro s t host p rest hm hin ht hne
  obtain ⟨_, hf, -⟩ := failed_of_status_ne_ok ht hne
  refine ⟨t.deliver host, step_command hin ht, hf.mem, hf.cfg, hf.inputs, ?_, fun host' p' rest' hrest => ?_⟩
  · rw [State.deliver_responses, hf.responses, hf.res]
  · obtain ⟨w, v, q, hw, hv, hmem, hcfg, hinp, hrw, hrv⟩ := step_command_congr (s := { s with inputs := rest })
      (u := t.deliver host) hm hf.mem.symm hf.cfg.symm hrest (hf.inputs.trans hrest)
    exact ⟨v, w, q, hv, hw, hmem.symm, hcfg.symm, hinp.symm, hrw, hrv⟩

end Sys2Proof.Machine
end

section
/-! PROOFS. The statements of 70_reset_and_hazards.md: reset before a command and inside one. -/
namespace Sys2Proof.Machine

/-- Reset makes the registers unspecified and keeps memory, parameters and both ports (70_reset_and_hazards.md R220). -/
theorem step_reset {s : State} {rest : List Input} (h : s.inputs = .reset :: rest) :
    step s = .next { s with inputs := rest }.forget := by
  rw [step_eq h, takeInput]

/-- A command that reset cuts short ends from where it would have run to (70_reset_and_hazards.md R222). -/
theorem step_commandCut {s t : State} {host : Nat} {p : Packet} {rest : List Input} (h : s.inputs = .commandCut host p :: rest)
    (ht : runPacket p { s with inputs := rest } = .next t) : step s = .next (cutShort p s.mem t) := by
  rw [step_eq h, takeInput, ht, carryOn_next]

/-- Settles O3: the reset state and the state with the reset left out have equal memory and parameters, which with the packet
are all that a command's step depends on. -/
theorem commandAfterResetIsAsAnyOther : Obligations.CommandAfterResetIsAsAnyOther := by
  unfold Obligations.CommandAfterResetIsAsAnyOther
  intro s host p rest hm hin
  obtain ⟨u, v, _, hu, hv, hmem, hcfg, hinp, hru, hrv⟩ :=
    step_command_congr (s := { s with inputs := .command host p :: rest }.forget)
      (u := { s with inputs := .command host p :: rest }) hm rfl rfl rfl rfl
  exact ⟨_, u, v, step_reset hin, hu, hv, hmem, hcfg, hinp, hru.trans hrv.symm⟩

/-- Settles O46: the packet run to its end keeps parameters and ports, and being cut short mixes the old and the new bytes of
the write region only. -/
theorem commandCutByReset : Obligations.CommandCutByReset := by
  unfold Obligations.CommandCutByReset
  intro s host p rest hm hin
  obtain ⟨u, hu, hcfg, hinp, hresp, -⟩ := runPacket_frame p { s with inputs := rest }
  exact ⟨cutShort p s.mem u, u, hu, step_commandCut hin hu, hresp, hinp, hcfg, read_halfWritten p u hm⟩

end Sys2Proof.Machine
end

section
/-! PROOFS. The statements of 30_encoding.md about both directions of the encoding: decode after encode, encode after decode. -/
namespace Sys2Proof

/-- Settles O10: the packet of a command has zero reserved bits and the command's opcode and fields, and this with
well-formedness is when a packet decodes to the command. -/
theorem decodeOfEncode : Obligations.DecodeOfEncode := by
  unfold Obligations.DecodeOfEncode
  exact fun i hi => decode_eq_ok.2 ⟨encode_reserved i, (encode_op i).symm, (encode_fields i).symm, hi⟩

/-- Settles O11: the condition under which a packet decodes names every field of it, so that none is lost, and the
well-formedness of the command. -/
theorem encodeOfDecode : Obligations.EncodeOfDecode := by
  unfold Obligations.EncodeOfDecode
  intro p i hi
  obtain ⟨-, -, -, hwf⟩ := decode_eq_ok.1 hi
  exact ⟨encode_eq_of_decode hi, hwf⟩

end Sys2Proof
end

section
/-! PROOFS. The invariant of the machine: each part of a step keeps it. -/
namespace Sys2Proof.Machine

/-! ### The parts of a step -/

/-- The invariant speaks of the parameters, the memory and the responses only. -/
theorem State.Inv.of_mem {s t : State} (hs : s.Inv) (hcfg : t.cfg = s.cfg) (hresp : t.responses = s.responses)
    (hm : t.mem.wf = true ∧ t.mem.within (2 ^ s.cfg.aw) = true) : t.Inv where
  width := hcfg ▸ hs.width
  memory := hm.1
  inside := hcfg ▸ hm.2
  responses := hresp ▸ hs.responses

/-- Registers that become unspecified are no part of the invariant. -/
theorem State.Inv.after_forget {s : State} (hs : s.Inv) : s.forget.Inv := hs.of_mem rfl rfl ⟨hs.memory, hs.inside⟩

/-- A response formed from legal response registers is legal. -/
theorem State.Inv.after_deliver {s : State} (hs : s.Inv) (host : Nat)
    (hr : s.status.toNat ≤ 5 ∧ (s.status ≠ 0 → s.res = 0)) : (s.deliver host).Inv where
  width := hs.width
  memory := hs.memory
  inside := hs.inside
  responses := by
    intro r hmem
    rw [State.deliver_responses, List.mem_append, List.mem_singleton] at hmem
    rcases hmem with hold | rfl
    · exact hs.responses r hold
    · obtain ⟨hst, hres⟩ := hr
      exact legal_responsePacket hst hres

/-- A packet run to its end keeps the invariant, its response not sent yet. -/
theorem State.Inv.after_runPacket {p : Packet} {s t : State} (hs : s.Inv) (ht : runPacket p s = .next t) : t.Inv := by
  obtain ⟨t', ht', hcfg, -, hresp, hwf, -, -, hin⟩ := runPacket_frame p s
  obtain rfl : t = t' := Host.Outcome.next.inj (ht.symm.trans ht')
  exact hs.of_mem hcfg hresp ⟨hwf hs.memory, hin hs.inside⟩

/-- Stores inside memory during a command keep the invariant, where the write region of a command that succeeds lies inside
memory. -/
theorem State.Inv.after_disturb {p : Packet} {cells : List Host.Cell} {t : State} (ht : t.Inv)
    (hc : ∀ c ∈ cells, c.1 < 2 ^ t.cfg.aw)
    (hg : t.status = Status.ok.code → (packetWrites p).size = 0 ∨
      (packetWrites p).base + (packetWrites p).size ≤ 2 ^ t.cfg.aw) : (disturb p cells t).Inv :=
  ht.of_mem (disturb_cfg ..) (disturb_responses ..) (disturb_keeps p ht.memory ht.inside hc hg)

/-- A write region left half written keeps the invariant, where that of a command that succeeds lies inside memory. -/
theorem State.Inv.after_halfWritten {p : Packet} {m : Memory} {t : State} (ht : t.Inv)
    (hm : m.wf = true ∧ m.within (2 ^ t.cfg.aw) = true)
    (hg : t.status = Status.ok.code → (packetWrites p).size = 0 ∨
      (packetWrites p).base + (packetWrites p).size ≤ 2 ^ t.cfg.aw) : (halfWritten p m t).Inv :=
  ht.of_mem (halfWritten_cfg ..) (halfWritten_responses ..) (halfWritten_keeps p hm.1 hm.2 hg)

/-! ### Inputs that store (log 9) -/

/-- The bytes that an input has somebody other than the engine store. -/
def Input.stores : Input → List Host.Cell
  | .commandRaced _ _ cells | .commandRacedCut _ _ cells => cells
  | .store a b => [(a, b)]
  | .command _ _ | .commandCut _ _ | .setAccess _ _ | .reset => []

/-- An input that ends in a next state stores to addresses that exist. -/
theorem stores_inside_of_next {e : Input} {s t : State} (h : takeInput e s = .next t) :
    ∀ c ∈ e.stores, c.1 < 2 ^ s.cfg.aw := by
  rw [← outsideMemory_eq_none]
  cases e with
  | commandRaced | commandRacedCut | store =>
    rw [takeInput] at h
    split at h
    · cases h
    · assumption
  | command | commandCut | setAccess | reset => rfl

theorem takeInput_commandRaced {s : State} {cells : List Host.Cell} (host : Nat) (p : Packet)
    (hc : ∀ c ∈ cells, c.1 < 2 ^ s.cfg.aw) : takeInput (.commandRaced host p cells) s =
      carryOn (runPacket p s) fun t => (disturb p cells t).deliver host := by
  rw [takeInput, outsideMemory_eq_none.2 hc]

theorem takeInput_commandRacedCut {s : State} {cells : List Host.Cell} (host : Nat) (p : Packet)
    (hc : ∀ c ∈ cells, c.1 < 2 ^ s.cfg.aw) : takeInput (.commandRacedCut host p cells) s =
      carryOn (runPacket p s) (disturbAndCut p s.mem cells) := by
  rw [takeInput, outsideMemory_eq_none.2 hc]

theorem takeInput_store {s : State} {a : Nat} (b : Byte) (ha : a < 2 ^ s.cfg.aw) :
    takeInput (.store a b) s = .next { s with mem := s.mem.write a b } := by
  rw [takeInput, outsideMemory_eq_none.2 (List.forall_mem_singleton.2 ha)]

/-! ### Every step -/

/-- Every input keeps the invariant. -/
theorem State.Inv.after_takeInput {e : Input} {s t : State} (hs : s.Inv) (ht : takeInput e s = .next t) : t.Inv := by
  have fits {p : Packet} {u : State} (hu : runPacket p s = .next u) (hok : u.status = Status.ok.code) :
      (packetWrites p).size = 0 ∨ (packetWrites p).base + (packetWrites p).size ≤ 2 ^ u.cfg.aw :=
    (kept_of_runPacket hu).1 ▸ runPacket_write_fits hu hok
  have old {p : Packet} {u : State} (hu : runPacket p s = .next u) :
      s.mem.wf = true ∧ s.mem.within (2 ^ u.cfg.aw) = true :=
    ⟨hs.memory, (kept_of_runPacket hu).1 ▸ hs.inside⟩
  cases e with
  | command host p =>
    obtain ⟨u, hu, rfl⟩ := carryOn_eq_next ht
    exact (hs.after_runPacket hu).after_deliver host (runPacket_legal hu)
  | commandRaced host p cells =>
    have hc : ∀ c ∈ cells, c.1 < 2 ^ s.cfg.aw := stores_inside_of_next ht
    rw [takeInput_commandRaced host p hc] at ht
    obtain ⟨u, hu, rfl⟩ := carryOn_eq_next ht
    have hc' : ∀ c ∈ cells, c.1 < 2 ^ u.cfg.aw := (kept_of_runPacket hu).1 ▸ hc
    refine ((hs.after_runPacket hu).after_disturb hc' (fits hu)).after_deliver host ?_
    rw [disturb_status, disturb_res]
    exact runPacket_legal hu
  | commandCut host p =>
    obtain ⟨u, hu, rfl⟩ := carryOn_eq_next ht
    exact ((hs.after_runPacket hu).after_halfWritten (old hu) (fits hu)).after_forget
  | commandRacedCut host p cells =>
    have hc : ∀ c ∈ cells, c.1 < 2 ^ s.cfg.aw := stores_inside_of_next ht
    rw [takeInput_commandRacedCut host p hc] at ht
    obtain ⟨u, hu, rfl⟩ := carryOn_eq_next ht
    have hc' : ∀ c ∈ cells, c.1 < 2 ^ u.cfg.aw := (kept_of_runPacket hu).1 ▸ hc
    exact (((hs.after_runPacket hu).after_halfWritten (old hu) (fits hu)).after_disturb hc' (fits (u := u) hu)).after_forget
  | store a b =>
    have ha : a < 2 ^ s.cfg.aw := stores_inside_of_next ht (a, b) (List.mem_singleton_self _)
    rw [takeInput_store b ha] at ht
    obtain rfl := Host.Outcome.next.inj ht
    exact hs.of_mem rfl rfl ⟨Memory.wf_write a b hs.memory, Memory.within_write b hs.inside ha⟩
  | setAccess noRead noWrite =>
    obtain rfl := Host.Outcome.next.inj ht
    exact ⟨hs.width, hs.memory, hs.inside, hs.responses⟩
  | reset =>
    obtain rfl := Host.Outcome.next.inj ht
    exact hs.after_forget

/-- Settles O48: an idle step changes nothing, and every input keeps the invariant of the state it is taken from. -/
theorem everyStepKeepsTheInvariant : Obligations.EveryStepKeepsTheInvariant := by
  unfold Obligations.EveryStepKeepsTheInvariant
  intro s t hs ht
  cases hin : s.inputs with
  | nil =>
    obtain rfl := Host.Outcome.next.inj ((step_idle hin).symm.trans ht)
    exact hs
  | cons e rest =>
    have hs' : { s with inputs := rest }.Inv := ⟨hs.width, hs.memory, hs.inside, hs.responses⟩
    exact hs'.after_takeInput ((step_eq hin).symm.trans ht)

end Sys2Proof.Machine
end

section
/-! PROOFS. Every command ends, and the latches hold what was accepted (60_exceptions.md R190, 10_state.md R21). -/
namespace Sys2Proof.Machine

/-- Settles O16: a command fails and changes only latches and response registers, or executes and has its effect. -/
theorem everyCommandEnds : Obligations.EveryCommandEnds := by
  unfold Obligations.EveryCommandEnds
  intro i s
  obtain ⟨t, ht, ⟨st, -, -, rfl⟩ | ⟨-, he⟩⟩ := exec_cases i s
  · exact ⟨_, ht, rfl, rfl, rfl, rfl⟩
  · exact ⟨t, ht, he.cfg, he.inputs, he.responses, he.draws⟩

/-- Settles O17: a packet that fails has been latched and nothing more; a command that executes has the opcode and the fields of
its packet, and leaves them in the latches. -/
theorem latchesHoldThePacket : Obligations.LatchesHoldThePacket := by
  unfold Obligations.LatchesHoldThePacket
  intro p s
  rcases runPacket_of_cfg p s.cfg with ⟨st, -, hfail⟩ | ⟨i, hi, hx⟩
  · exact ⟨_, hfail s rfl, rfl⟩
  · obtain ⟨t, ht, he⟩ := exec_effect hx
    obtain ⟨-, hop, hfields, -⟩ := decode_eq_ok.1 hi
    exact ⟨t, (runPacket_of_ok hi s).trans ht, by rw [he.latch, hop, hfields]⟩

end Sys2Proof.Machine
end

section
/-! PROOFS. The finalization mixes are bijections (41_fmix.md R94). -/
namespace Sys2Proof.Machine

/-- Xor with the own right shift, by at least one place, loses nothing: from the highest bit down, each bit is found again by the
one already known `n` places above it. -/
theorem xorShift_injective {w n : Nat} (hn : 0 < n) : Function.Injective fun x : BitVec w => x ^^^ (x >>> n) := by
  intro x y hxy
  have bits (i : Nat) : (x.getLsbD i ^^ x.getLsbD (n + i)) = (y.getLsbD i ^^ y.getLsbD (n + i)) := by
    simpa only [BitVec.getLsbD_xor, BitVec.getLsbD_ushiftRight] using congrArg (·.getLsbD i) hxy
  have top (k : Nat) : ∀ i, w ≤ i + k → x.getLsbD i = y.getLsbD i := by
    induction k with
    | zero => exact fun i hi => by rw [BitVec.getLsbD_of_ge x i hi, BitVec.getLsbD_of_ge y i hi]
    | succ k ih =>
      intro i hi
      have hxor := bits i
      rwa [ih (n + i) (by omega), Bool.xor_left_inj] at hxor
  exact BitVec.eq_of_getLsbD_eq fun i _ => top w i (by omega)

theorem xorShift_bijective {w n : Nat} (hn : 0 < n) : Function.Bijective fun x : BitVec w => x ^^^ (x >>> n) := by
  have : Finite (BitVec w) := .of_injective _ BitVec.toFin_injective
  exact Finite.injective_iff_bijective.1 (xorShift_injective hn)

/-- Multiplication by a constant that has an inverse is a bijection. -/
theorem mul_bijective {w : Nat} {c d : BitVec w} (h : c * d = 1) : Function.Bijective fun x : BitVec w => c * x :=
  IsUnit.isUnit_iff_mulLeft_bijective.1 (IsUnit.of_mul_eq_one d h)

/-- The mix is a bijection when it shifts and its multipliers have inverses. -/
theorem avalanche_bijective {w p q r : Nat} {c c' d d' : BitVec w} (hp : 0 < p) (hq : 0 < q) (hr : 0 < r)
    (hc : c * c' = 1) (hd : d * d' = 1) : Function.Bijective (avalanche p q r c d) :=
  (xorShift_bijective hr).comp ((mul_bijective hd).comp ((xorShift_bijective hq).comp
    ((mul_bijective hc).comp (xorShift_bijective hp))))

theorem avalanche_zero {w : Nat} (p q r : Nat) (c d : BitVec w) : avalanche p q r c d 0 = 0 := by
  simp [avalanche]

/-- Settles O26: both functions are the one mix, whose odd multipliers have the inverses given here. -/
theorem fmixIsBijective : Obligations.FmixIsBijective := by
  unfold Obligations.FmixIsBijective
  refine ⟨?_, ?_, avalanche_zero .., avalanche_zero ..⟩
  · exact avalanche_bijective (c' := 0xa5cb9243) (d' := 0x7ed1b41d) (by decide) (by decide) (by decide) (by decide) (by decide)
  · exact avalanche_bijective (c' := 0x4f74430c22a54005) (d' := 0x9cb4b2f8129337db) (by decide) (by decide) (by decide)
      (by decide) (by decide)

end Sys2Proof.Machine
end

section
/-! PROOFS. The leaf commands: ROTL32, ROTL64, FMIX32, FMIX64 (40_rotate.md R81, R82; 41_fmix.md R92, R93). -/
namespace Sys2Proof.Machine

/-- A legal leaf command ends with its result in `RES`, and has changed nothing but latches and response registers. -/
theorem exec_leaf {i : Instr} (s : State) (hl : Leaf i) (hwf : i.wellFormed = true) :
    exec i s = .next ((s.accept i.op i.fields).respond .ok (resultOf i)) := by
  cases i with
  | rotl32 f => exact (execRotl32_eq f s).trans (congrArg Host.Outcome.next (if_pos (of_decide_eq_true hwf)))
  | rotl64 f => exact execRotl64_eq f s
  | fmix32 f => exact (execFmix32_eq f s).trans (congrArg Host.Outcome.next (if_pos hwf))
  | fmix64 f => exact (execFmix64_eq f s).trans (congrArg Host.Outcome.next (if_pos hwf))
  | hashX86_32 | hashX86_128 | hashX64_128 | hashX64_128_x16 => exact hl.elim

/-- A rotation's packet with a reserved bit set, or a ROTL32 packet with an amount its word has no room for, is illegal
(30_encoding.md R65). -/
theorem runPacket_rotate_fails {p : Packet} (h : p.cmd.extractLsb' 10 22 ≠ 0 ∨ (p.op = 0x1 ∧ 32 ≤ p.fields.r.toNat))
    (s : State) : ∃ t, runPacket p s = .next t ∧ Failed .errIllegal s t := by
  obtain ⟨hlist, hfails⟩ := illegalPacketsFail p
  exact hfails (hlist.2 (by tauto)) s

/-- Settles O23: an illegal word fails by R65's list; below 32 the command is legal and answers its result. -/
theorem rotl32Command : Obligations.Rotl32Command := by
  unfold Obligations.Rotl32Command
  refine ⟨fun p s hop h => runPacket_rotate_fails (h.imp_right fun hr => ⟨hop, hr⟩) s, fun f s hr => ?_⟩
  exact exec_leaf s trivial (decide_eq_true hr)

/-- Settles O24: an illegal word fails by R65's list; every amount is legal. -/
theorem rotl64Command : Obligations.Rotl64Command := by
  unfold Obligations.Rotl64Command
  exact ⟨fun p s _ h => runPacket_rotate_fails (.inl h) s, fun f s => exec_leaf s trivial rfl⟩

/-- Settles O27: a bit above the opcode makes the packet illegal; with `R = 0` the command is legal and answers its result. -/
theorem fmix32Command : Obligations.Fmix32Command := by
  unfold Obligations.Fmix32Command
  refine ⟨fun p s hop hb => ?_, fun f s hr => exec_leaf s trivial (decide_eq_true hr)⟩
  exact runPacket_fails_of_bit_above_op (by rw [hop]; decide) (by rw [hop]; decide) hb s

/-- Settles O28: a bit above the opcode makes the packet illegal; with `R = 0` the command is legal and answers its result. -/
theorem fmix64Command : Obligations.Fmix64Command := by
  unfold Obligations.Fmix64Command
  refine ⟨fun p s hop hb => ?_, fun f s hr => exec_leaf s trivial (decide_eq_true hr)⟩
  exact runPacket_fails_of_bit_above_op (by rw [hop]; decide) (by rw [hop]; decide) hb s

/-- Settles O40: a leaf command fails, or is legal and answers its result; both change only the latches and the response
registers. -/
theorem leafCommandsChangeOnlyTheResponse : Obligations.LeafCommandsChangeOnlyTheResponse := by
  unfold Obligations.LeafCommandsChangeOnlyTheResponse
  intro i s t hl ht
  obtain ⟨t', ht', ⟨st, -, -, rfl⟩ | ⟨⟨hwf, -⟩, -⟩⟩ := exec_cases i s
  · obtain rfl := Host.Outcome.next.inj (ht.symm.trans ht')
    rfl
  · obtain rfl := Host.Outcome.next.inj (ht.symm.trans (exec_leaf s hl hwf))
    rfl

end Sys2Proof.Machine
end

section
/-! PROOFS. The statements about HASH commands with an empty key, and of 45_hash_x64_128_x16.md about the lanes of a batch. -/
namespace Sys2Proof.Machine

/-! ### Empty keys -/

/-- A legal command with nothing to read executes when its write region passes its checks. -/
theorem executes_of_reads_nothing {i : Instr} {c : Config} (hwf : i.wellFormed = true) (hlen : LengthsLegal i)
    (hreads : ∀ g ∈ readRegions i, g.size = 0) (hfit : Fits c (writeRegion i)) (hwr : AllWritable c (writeRegion i)) :
    Executes i c := by
  refine ⟨hwf, .inr ⟨hlen, ⟨fun g hg hpos => ?_, hfit⟩, fun g hg a ha => ?_, hwr⟩⟩
  · exact absurd (hreads g hg) hpos.ne'
  · have hsize := hreads g hg
    obtain ⟨hlo, hhi⟩ := ha
    omega

/-- With no key bytes the digest is the finalized seed (42_hash_x86_32.md R108 (a)). -/
theorem digestX86_32_nil (seed : Word32) : digestX86_32 seed [] = fmix32 seed :=
  calc digestX86_32 seed []
      = avalanche32 (seed ^^^ mixWord 0xcc9e2d51 15 0x1b873593 0 ^^^ 0) := rfl
    _ = fmix32 seed := by rw [mixWord_zero, fmix32_eq]; simp

/-- Every lane of every buffer is laid out for the empty key, with `PEND_LEN = 0` (R170). -/
theorem laidOut_nil (m : Memory) (base l : Nat) : LaidOut m base l [] 0 :=
  ⟨fun _ hp => absurd hp (Nat.not_lt_zero _), fun h => absurd rfl h, fun h => absurd h (Nat.lt_irrefl 0)⟩

/-- Settles O35: with `LEN = 0` the read regions are empty, so that the command executes whatever `A` and `B` are, and the key is
the empty string of bytes; a lane is laid out for it by any buffer. -/
theorem emptyKeyReadsNothing : Obligations.EmptyKeyReadsNothing := by
  unfold Obligations.EmptyKeyReadsNothing
  intro f s hm hr hl
  have hrot : rotationUnused f = true := decide_eq_true hr
  have hlen : f.len.toNat = 0 := by rw [hl]; rfl
  have hlegal : f.len.toNat < 2 ^ 31 := by omega
  have hkey : ∀ g ∈ [keyRegion f], g.size = 0 := List.forall_mem_singleton.2 hlen
  refine ⟨fun hfit hwr => ?_, fun hfit hwr => ⟨?_, ?_⟩, fun hp hfit hwr => ?_⟩
  · obtain ⟨t, ht, hst, -, hd, -⟩ := (hashX86_32Command.2 f s).2 hm (executes_of_reads_nothing hrot hlegal hkey hfit hwr)
    rw [hlen] at hd
    exact ⟨t, ht, hst, hd.trans (congrArg (wordBytes 4) (digestX86_32_nil f.seed))⟩
  · obtain ⟨t, ht, hst, -, hd, -⟩ := (hashX86_128Command.2 f s).2 hm (executes_of_reads_nothing hrot hlegal hkey hfit hwr)
    rw [hlen] at hd
    exact ⟨t, ht, hst, hd⟩
  · obtain ⟨t, ht, hst, -, hd, -⟩ := (hashX64_128Command.2 f s).2 hm (executes_of_reads_nothing hrot hlegal hkey hfit hwr)
    rw [hlen] at hd
    exact ⟨t, ht, hst, hd⟩
  · have hplen : f.pendLen.toNat = 0 := by rw [hp]; rfl
    have hslots : ∀ g ∈ slotRegions f, g.size = 0 := by
      simp [slotRegions, nslots, nblocks, extraBlock, hl, hp]
    obtain ⟨t, ht, hst, -, hd, -⟩ := (hashX64_128_x16Command.2 f s).2 hm
      (executes_of_reads_nothing hrot ⟨hlegal, by omega⟩ hslots hfit hwr)
    refine ⟨t, ht, hst, fun n hn => (hd n hn).trans (congrArg pairBytes ?_)⟩
    exact digestLane_eq_digestX64_128 f.seed hlen.symm (hplen ▸ laidOut_nil ..)

/-! ### What a lane's digest depends on (45_hash_x64_128_x16.md R168, R172) -/

/-- A lane's digest depends on `PEND_LEN` through the comparison with `LEN`, and on the words of the slots that this comparison
and `LEN` make it read. -/
theorem digestLane_congr {seed len pendLen pendLen' : Word32} {word word' : Nat → Word64}
    (hc : len < pendLen ↔ len < pendLen')
    (hw : ∀ j, j < 2 * (len.toNat / 16) + (if len < pendLen then 2 else 0) → word j = word' j) :
    digestLane seed len pendLen word = digestLane seed len pendLen' word' := by
  have hblocks : (List.range (len.toNat / 16)).foldl (fun h i => blockStepX64_128 h (word (2 * i)) (word (2 * i + 1)))
      (seed.setWidth 64, seed.setWidth 64) = (List.range (len.toNat / 16)).foldl
      (fun h i => blockStepX64_128 h (word' (2 * i)) (word' (2 * i + 1))) (seed.setWidth 64, seed.setWidth 64) := by
    refine List.foldl_ext _ _ _ fun h i hi => ?_
    have hi : i < len.toNat / 16 := List.mem_range.1 hi
    rw [hw (2 * i) (by omega), hw (2 * i + 1) (by omega)]
  simp only [digestLane, hblocks]
  by_cases he : len < pendLen
  · rw [if_pos he] at hw
    rw [if_pos he, if_pos (hc.1 he), hw _ (by omega), hw _ (by omega)]
  · rw [if_neg he, if_neg (mt hc.2 he)]

/-- The number of slots of a command, as R161 gives it. -/
theorem nslots_eq (f : Fields) : nslots f = 2 * (f.len.toNat / 16) + (if f.len < f.pendLen then 2 else 0) := by
  simp only [nslots, nblocks, extraBlock, decide_eq_true_eq]

/-- Settles O37: each of the two commands writes its lane's digest, and the two lanes have equal words in every slot read. -/
theorem lanesAreIndependent : Obligations.LanesAreIndependent := by
  unfold Obligations.LanesAreIndependent
  intro f g s u t v n k hs hu hn hk hseed hlen hc hread hxf hxg ht hv
  obtain ⟨t', ht', -, -, hdt, -⟩ := (hashX64_128_x16Command.2 f s).2 hs hxf
  obtain ⟨v', hv', -, -, hdv, -⟩ := (hashX64_128_x16Command.2 g u).2 hu hxg
  obtain rfl : t = t' := Host.Outcome.next.inj (ht.symm.trans ht')
  obtain rfl : v = v' := Host.Outcome.next.inj (hv.symm.trans hv')
  rw [hdt n hn, hdv k hk, batchDigest, batchDigest, ← hseed, ← hlen]
  refine congrArg pairBytes (digestLane_congr (by rwa [← hlen] at hc) fun j hj => ?_)
  rw [← nslots_eq] at hj
  rw [slotWord, slotWord, bytesAt_congr (hread j hj)]

/-- Settles O39: with `A = B` lane `n` of the second buffer is lane `n` of the first. -/
theorem sameBufferTwiceGivesEqualDigests : Obligations.SameBufferTwiceGivesEqualDigests := by
  unfold Obligations.SameBufferTwiceGivesEqualDigests
  intro f s hm hx hab
  obtain ⟨t, ht, -, -, hd, -⟩ := (hashX64_128_x16Command.2 f s).2 hm hx
  refine ⟨t, ht, fun n hn => ?_⟩
  rw [hd n (by omega), hd (n + 8) (by omega), batchDigest, batchDigest, if_pos hn, if_neg (by omega), Nat.add_mod_right, hab]

end Sys2Proof.Machine
end

section
/-! PROOFS. Commands that differ only where it makes no difference: fields not used (30_encoding.md R62), and `PEND_LEN` on the same
side of `LEN` (45_hash_x64_128_x16.md R161). -/
namespace Sys2Proof.Machine

/-- The checks of 60_exceptions.md R193 ask the same of the two commands, and both have the same write region, unless they write
nothing. -/
structure SameChecks (i j : Instr) : Prop where
  wellFormed : i.wellFormed = j.wellFormed
  leaf       : Leaf i ↔ Leaf j
  lengths    : LengthsLegal i ↔ LengthsLegal j
  reads      : readRegions i = readRegions j
  write      : ¬Leaf i → writeRegion i = writeRegion j

/-- Commands with the same checks get the same verdict: that of a leaf command does not look at the write region. -/
theorem SameChecks.verdict {i j : Instr} (h : SameChecks i j) {c : Config} {st : Status} (hv : Verdict i c st) :
    Verdict j c st := by
  obtain ⟨hwf, hleaf, hlen, hreads, hwrite⟩ := h
  by_cases hl : Leaf i
  · cases st <;> simp_all [Verdict, Executes]
  · cases st <;> simp_all [Verdict, Executes]

/-- The write region of a leaf command is empty. -/
theorem not_leaf_of_within {i : Instr} {a : Nat} (h : Within (writeRegion i) a) : ¬Leaf i := by
  intro hl
  obtain ⟨hlo, hhi⟩ := h
  cases i with
  | rotl32 | rotl64 | fmix32 | fmix64 => exact absurd hhi (Nat.not_lt.2 hlo)
  | hashX86_32 | hashX86_128 | hashX64_128 | hashX64_128_x16 => exact hl

/-- Commands with the same checks, results and digests end from a state with canonical memory in the same response and memory. -/
theorem exec_congr {i j : Instr} {s : State} (hm : s.mem.wf = true) (h : SameChecks i j) (hres : resultOf i = resultOf j)
    (hdig : digestBytes s.mem i = digestBytes s.mem j) :
    ∃ t u, exec i s = .next t ∧ exec j s = .next u ∧ t.status = u.status ∧ t.res = u.res ∧ t.mem = u.mem := by
  obtain ⟨t, ht, ⟨st, hv, hne, rfl⟩ | ⟨hx, et⟩⟩ := exec_cases i s
  · exact ⟨_, _, ht, exec_of_verdict_ne_ok (h.verdict hv) hne, rfl, rfl, rfl⟩
  · obtain ⟨u, hu, eu⟩ := exec_effect (h.verdict (st := .ok) hx)
    refine ⟨t, u, ht, hu, et.status.trans eu.status.symm, et.res.trans (hres.trans eu.res.symm), ?_⟩
    refine Memory.ext (et.wf hm) (eu.wf hm) fun a => ?_
    by_cases ha : Within (writeRegion i) a
    · have hd := eu.digest hm
      rw [← h.write (not_leaf_of_within ha)] at hd
      exact read_eq_of_bytesAt (et.digest hm) hd hdig ha
    · have ha' : ¬Within (writeRegion j) a := fun hj =>
        ha (h.write (mt h.leaf.1 (not_leaf_of_within hj)) ▸ hj)
      rw [et.outside a ha, eu.outside a ha']

/-- What two commands agree on when they agree on the fields they use: their checks, their result and their digest. -/
theorem sameUsed_agree {i j : Instr} (h : SameUsed i j) :
    SameChecks i j ∧ resultOf i = resultOf j ∧ ∀ m, digestBytes m i = digestBytes m j := by
  match i, j, h with
  | .rotl32 f, .rotl32 g, ⟨hr, ha⟩ =>
    refine ⟨⟨?_, .rfl, .rfl, rfl, absurd trivial⟩, ?_, fun _ => rfl⟩
    · simp only [Instr.wellFormed, rotationFits32, hr]
    · simp only [resultOf, hr, ha]
  | .rotl64 f, .rotl64 g, ⟨hr, ha⟩ =>
    exact ⟨⟨rfl, .rfl, .rfl, rfl, absurd trivial⟩, by simp only [resultOf, hr, ha], fun _ => rfl⟩
  | .fmix32 f, .fmix32 g, ⟨hr, ha⟩ | .fmix64 f, .fmix64 g, ⟨hr, ha⟩ =>
    refine ⟨⟨?_, .rfl, .rfl, rfl, absurd trivial⟩, ?_, fun _ => rfl⟩
    · simp only [Instr.wellFormed, rotationUnused, hr]
    · simp only [resultOf, ha]
  | .hashX86_32 f, .hashX86_32 g, ⟨hr, hseed, hlen, ha, hout⟩
  | .hashX86_128 f, .hashX86_128 g, ⟨hr, hseed, hlen, ha, hout⟩
  | .hashX64_128 f, .hashX64_128 g, ⟨hr, hseed, hlen, ha, hout⟩ =>
    refine ⟨⟨?_, .rfl, ?_, ?_, fun _ => ?_⟩, rfl, fun m => ?_⟩
    · simp only [Instr.wellFormed, rotationUnused, hr]
    · simp only [LengthsLegal, hlen]
    · simp only [readRegions, keyRegion, hlen, ha]
    · simp only [writeRegion, outRegion, hout]
    · simp only [digestBytes, hseed, hlen, ha]
  | .hashX64_128_x16 f, .hashX64_128_x16 _, rfl =>
    exact ⟨⟨rfl, .rfl, .rfl, rfl, fun _ => rfl⟩, rfl, fun _ => rfl⟩

/-- Settles O13: the fields used decide the checks, the result and the digest. -/
theorem unusedFieldsAreIgnored : Obligations.UnusedFieldsAreIgnored := by
  unfold Obligations.UnusedFieldsAreIgnored
  intro i j s hm h
  obtain ⟨hchecks, hres, hdig⟩ := sameUsed_agree h
  exact exec_congr hm hchecks hres (hdig s.mem)

/-- Two legal values of `PEND_LEN` on the same side of `LEN` pass the same checks: `PEND_LEN` decides no more than whether there are
two slots more to read. -/
theorem sameChecks_of_pendLen {f : Fields} {n : Word32} (hp : f.pendLen.toNat < 2 ^ 31) (hn : n.toNat < 2 ^ 31)
    (hc : f.len < f.pendLen ↔ f.len < n) : SameChecks (.hashX64_128_x16 f) (.hashX64_128_x16 { f with pendLen := n }) where
  wellFormed := rfl
  leaf := .rfl
  lengths := and_congr_right fun _ => iff_of_true hp hn
  reads := by simp only [readRegions, slotRegions, nslots_eq, hc]
  write := fun _ => rfl

/-- Settles O38: the two values of `PEND_LEN` pass the same checks, and every lane's digest uses only the comparison. -/
theorem pendingLengthIsOnlyCompared : Obligations.PendingLengthIsOnlyCompared := by
  unfold Obligations.PendingLengthIsOnlyCompared
  intro f n s hm hp hn hc
  refine exec_congr hm (sameChecks_of_pendLen hp hn hc) rfl (List.flatMap_congr fun k _ => ?_)
  exact congrArg pairBytes (digestLane_congr hc fun _ _ => rfl)

end Sys2Proof.Machine
end

section
/-! PROOFS. The frame of the four HASH commands (10_state.md R22 and R23, 20_memory.md R44). -/
namespace Sys2Proof.Machine

/-- No command writes outside its write region. -/
theorem read_outside_of_exec {i : Instr} {s t : State} (ht : exec i s = .next t) {a : Nat} (ha : ¬Within (writeRegion i) a) :
    t.mem.read a = s.mem.read a := by
  obtain ⟨t', ht', ⟨st, -, -, rfl⟩ | ⟨-, he⟩⟩ := exec_cases i s
  · obtain rfl := Host.Outcome.next.inj (ht.symm.trans ht')
    rfl
  · obtain rfl : t = t' := Host.Outcome.next.inj (ht.symm.trans ht')
    exact he.outside a ha

/-- A command that answers a next state has failed, which changes latches and response registers only, or it executes. -/
theorem fails_or_executes {i : Instr} {s t : State} (ht : exec i s = .next t) :
    (∃ st, t = (s.accept i.op i.fields).fail st) ∨ Executes i s.cfg := by
  obtain ⟨t', ht', ⟨st, -, -, rfl⟩ | ⟨hx, -⟩⟩ := exec_cases i s
  · exact .inl ⟨st, Host.Outcome.next.inj (ht.symm.trans ht')⟩
  · exact .inr hx

/-- Settles O41: a failure changes latches and response registers only; a command that executes ends in the state that the law of
its unit gives, whose other changes are the unit's registers, the block index and memory. -/
theorem hashCommandsChangeOnlyTheirOwn : Obligations.HashCommandsChangeOnlyTheirOwn := by
  unfold Obligations.HashCommandsChangeOnlyTheirOwn
  refine ⟨fun f s t ht => ⟨?_, fun a => read_outside_of_exec ht⟩, fun f s t ht => ⟨?_, fun a => read_outside_of_exec ht⟩,
    fun f s t ht => ⟨?_, fun a => read_outside_of_exec ht⟩, fun f s t ht => ⟨?_, fun a => read_outside_of_exec ht⟩⟩
  · rcases fails_or_executes ht with ⟨st, rfl⟩ | hx
    · rfl
    · obtain ⟨k, hk⟩ := execHashX86_32_ok hx
      rw [Host.Outcome.next.inj (ht.symm.trans hk)]
  · rcases fails_or_executes ht with ⟨st, rfl⟩ | hx
    · rfl
    · obtain ⟨g, -, hg⟩ := execHashX86_128_ok hx
      rw [Host.Outcome.next.inj (ht.symm.trans hg)]
  · rcases fails_or_executes ht with ⟨st, rfl⟩ | hx
    · rfl
    · obtain ⟨g, -, hg⟩ := execHashX64_128_ok hx
      rw [Host.Outcome.next.inj (ht.symm.trans hg)]
  · rcases fails_or_executes ht with ⟨st, rfl⟩ | hx
    · rfl
    · obtain ⟨g0, g1, -, -, hg⟩ := execHashX64_128_x16_ok hx
      rw [Host.Outcome.next.inj (ht.symm.trans hg)]

end Sys2Proof.Machine
end

section
/-! PROOFS. Commands of which neither writes into the other's regions (60_exceptions.md R202, 70_reset_and_hazards.md R227). -/
namespace Sys2Proof.Machine

/-- No packet writes outside its write region. -/
theorem read_outside_of_runPacket {p : Packet} {s t : State} (ht : runPacket p s = .next t) {a : Nat}
    (ha : ¬Within (packetWrites p) a) : t.mem.read a = s.mem.read a := by
  obtain ⟨t', ht', -, -, -, -, hout, -⟩ := runPacket_frame p s
  obtain rfl : t = t' := Host.Outcome.next.inj (ht.symm.trans ht')
  exact hout a ha

/-- A packet run behind another that does not write into its regions gives the response, and leaves the bytes in its write region,
that it would have without the other. -/
theorem runPacket_after_apart {p q : Packet} {s u : State} (hm : s.mem.wf = true) (hu : runPacket q s = .next u)
    (hw : ∀ a, Within (packetWrites q) a → ¬Within (packetWrites p) a)
    (hr : ∀ a, Within (packetWrites q) a → ∀ g ∈ packetReads p, ¬Within g a) :
    ∃ t v, runPacket p s = .next t ∧ runPacket p u = .next v ∧ t.status = v.status ∧ t.res = v.res ∧
      ∀ a, Within (packetWrites p) a → t.mem.read a = v.mem.read a := by
  obtain ⟨hcfg, -, -, hwf⟩ := kept_of_runPacket hu
  have hreads : AgreeOn (packetReads p) s.mem u.mem := fun g hg a ha =>
    (read_outside_of_runPacket hu fun hq => hr a hq g hg ha).symm
  obtain ⟨t, v, ht, hv, hst, hres, hin, -, hfail⟩ := equalPacketsGiveEqualResponses p s u hm (hwf hm) hcfg.symm hreads
  refine ⟨t, v, ht, hv, hst, hres, fun a ha => ?_⟩
  by_cases hok : t.status = Status.ok.code
  · exact hin hok a ha
  · obtain ⟨hts, hvu⟩ := hfail hok
    rw [hts, hvu]
    exact (read_outside_of_runPacket hu fun hq => hw a hq ha).symm

/-- Settles O45: each packet does the same with the other before it as without, and each byte is last written by the packet whose
write region it is in. -/
theorem commandsOnDisjointRegionsCommute : Obligations.CommandsOnDisjointRegionsCommute := by
  unfold Obligations.CommandsOnDisjointRegionsCommute
  intro p q s hm hpq hqp
  have hpw (a : Nat) (ha : Within (packetWrites p) a) : ¬Within (packetWrites q) a := (hpq a ha).1
  obtain ⟨t1, ht1, -⟩ := runPacket_frame p s
  obtain ⟨u1, t2, hu1, ht2, hstq, hresq, hinq⟩ := runPacket_after_apart hm ht1 hpw fun a ha => (hpq a ha).2
  obtain ⟨t1', u2, ht1', hu2, hstp, hresp, hinp⟩ := runPacket_after_apart hm hu1 (fun a hq hp => hpw a hp hq) hqp
  obtain rfl : t1 = t1' := Host.Outcome.next.inj (ht1.symm.trans ht1')
  refine ⟨t1, t2, u1, u2, ht1, ht2, hu1, hu2, ?_, hstp, hresp, hstq.symm, hresq.symm⟩
  obtain ⟨-, -, -, hwt1⟩ := kept_of_runPacket ht1
  obtain ⟨-, -, -, hwt2⟩ := kept_of_runPacket ht2
  obtain ⟨-, -, -, hwu1⟩ := kept_of_runPacket hu1
  obtain ⟨-, -, -, hwu2⟩ := kept_of_runPacket hu2
  refine Memory.ext (hwt2 (hwt1 hm)) (hwu2 (hwu1 hm)) fun a => ?_
  by_cases hp : Within (packetWrites p) a
  · exact (read_outside_of_runPacket ht2 (hpw a hp)).trans (hinp a hp)
  by_cases hq : Within (packetWrites q) a
  · exact (hinq a hq).symm.trans (read_outside_of_runPacket hu2 hp).symm
  · rw [read_outside_of_runPacket ht2 hq, read_outside_of_runPacket ht1 hp, read_outside_of_runPacket hu2 hp,
      read_outside_of_runPacket hu1 hq]

end Sys2Proof.Machine
end

section
/-! PROOFS. Reset, idleness, the host's inputs, and commands from acceptance to response (70_reset_and_hazards.md R220 to R224,
60_exceptions.md R200, R202). -/
namespace Sys2Proof.Machine

/-! ### Reset and the inputs that are no command -/

/-- Settles O1: the reset state is written out, with nothing in memory and nothing sent. -/
theorem resetStateIsIdleAndLegal : Obligations.ResetStateIsIdleAndLegal := by
  unfold Obligations.ResetStateIsIdleAndLegal
  exact ⟨⟨rfl, rfl⟩, by decide, rfl, rfl, fun _ hr => absurd hr List.not_mem_nil⟩

/-- Settles O2: reset forgets the registers and nothing else. -/
theorem resetInputKeepsMemory : Obligations.ResetInputKeepsMemory := by
  unfold Obligations.ResetInputKeepsMemory
  exact fun s rest hin => ⟨_, step_reset hin, rfl, rfl, rfl, rfl⟩

/-- Settles O4: with no input waiting the step is the state itself. -/
theorem idleEngineStaysIdle : Obligations.IdleEngineStaysIdle := by
  unfold Obligations.IdleEngineStaysIdle
  exact fun _ => step_idle

/-- Settles O5: the address decides whether the store lands, as a write of its byte, or stops the model. -/
theorem hostsOwnTheMemory : Obligations.HostsOwnTheMemory := by
  unfold Obligations.HostsOwnTheMemory
  refine ⟨fun s a b rest hm hin ha => ?_, fun s a b rest hin ha => ?_, fun s nr nw rest hin => step_eq hin⟩
  · refine ⟨_, (step_eq hin).trans (takeInput_store b ha), ?_, fun a' hne => ?_, rfl⟩
    · exact Memory.read_write_self a b hm
    · exact Memory.read_write_of_ne b hne
  · have hout : outsideMemory s.cfg [(a, b)] = some a := by
      rw [outsideMemory, List.find?_cons_of_pos, Option.map_some]
      exact decide_eq_true ha
    rw [step_eq hin, takeInput, hout]

/-! ### Commands -/

/-- Settles O14: the step takes the packet, which runs as its command. -/
theorem stepRunsTheDecodedCommand : Obligations.StepRunsTheDecodedCommand := by
  unfold Obligations.StepRunsTheDecodedCommand
  intro s host p rest i hin hi
  have hrun : runPacket p { s with inputs := rest } = exec i { s with inputs := rest } := runPacket_of_ok hi _
  refine ⟨?_, fun t ht => ⟨t.deliver host, step_command hin (hrun.trans ht), rfl, rfl, rfl, rfl, rfl⟩⟩
  rw [step_eq hin, takeInput, hrun]

/-- A command that another agent's stores race is answered, the stores having done what they do to memory. -/
theorem step_commandRaced {s t : State} {host : Nat} {p : Packet} {cells : List Host.Cell} {rest : List Input}
    (h : s.inputs = .commandRaced host p cells :: rest) (hc : ∀ c ∈ cells, c.1 < 2 ^ s.cfg.aw)
    (ht : runPacket p { s with inputs := rest } = .next t) : step s = .next ((disturb p cells t).deliver host) := by
  rw [step_eq h, takeInput_commandRaced (s := { s with inputs := rest }) host p hc, ht, carryOn_next]

theorem step_commandRacedCut {s t : State} {host : Nat} {p : Packet} {cells : List Host.Cell} {rest : List Input}
    (h : s.inputs = .commandRacedCut host p cells :: rest) (hc : ∀ c ∈ cells, c.1 < 2 ^ s.cfg.aw)
    (ht : runPacket p { s with inputs := rest } = .next t) : step s = .next (disturbAndCut p s.mem cells t) := by
  rw [step_eq h, takeInput_commandRacedCut (s := { s with inputs := rest }) host p hc, ht, carryOn_next]

/-- Settles O47: the stores change memory alone, before the response is sent; what they leave outside the write region is what they
would leave without the command, which writes nothing there. -/
theorem commandRacedByAnotherAgent : Obligations.CommandRacedByAnotherAgent := by
  unfold Obligations.CommandRacedByAnotherAgent
  intro s host p cells rest hm hin hc
  obtain ⟨u, hu, -⟩ := runPacket_frame p { s with inputs := rest }
  obtain ⟨hcfg, hinp, hresp, hwf⟩ := kept_of_runPacket hu
  refine ⟨(disturb p cells u).deliver host, u, hu, step_commandRaced hin hc hu, ?_, ?_, ?_, fun a ha => ?_,
    disturb_mem_of_apart⟩
  · rw [State.deliver_inputs, disturb_inputs, hinp]
  · rw [State.deliver_cfg, disturb_cfg, hcfg]
  · rw [State.deliver_responses, disturb_responses, disturb_status, disturb_res, hresp]
  · exact (read_disturb p cells (hwf hm) ha).trans (Memory.read_store_congr cells (hwf hm) hm (read_outside_of_runPacket hu ha))

theorem wf_halfWritten (p : Packet) {m : Memory} (t : State) (hm : m.wf = true) : (halfWritten p m t).mem.wf = true := by
  unfold halfWritten
  dsimp only
  split
  · exact Memory.wf_fill _ _ _ hm
  · exact hm

/-- Settles O49: the stores do to the half written memory what they do to a finished command's. Outside the write region it is the
old memory; where no store falls inside, the old or new bytes stay; and a command that fails has half written nothing. -/
theorem commandRacedAndCutByReset : Obligations.CommandRacedAndCutByReset := by
  unfold Obligations.CommandRacedAndCutByReset
  intro s host p cells rest hm hin hc
  obtain ⟨u, hu, -⟩ := runPacket_frame p { s with inputs := rest }
  obtain ⟨hcfg, hinp, hresp, -⟩ := kept_of_runPacket hu
  have hhalf : (halfWritten p s.mem u).mem.wf = true := wf_halfWritten p u hm
  refine ⟨disturbAndCut p s.mem cells u, u, hu, step_commandRacedCut hin hc hu, ?_, ?_, ?_, fun a ha => ?_,
    fun hapart a ha => ?_, fun hne => ?_⟩
  · rw [disturbAndCut_responses, hresp]
  · rw [disturbAndCut_inputs, hinp]
  · rw [disturbAndCut_cfg, hcfg]
  · rw [disturbAndCut_mem, read_disturb p cells hhalf ha]
    exact Memory.read_store_congr cells hhalf hm ((read_halfWritten p u hm a).2 ha)
  · have hne : ∀ c ∈ cells, c.1 ≠ a := fun c hcell h =>
      absurd (inPacketRegions_of_writes (h ▸ ha)) (by rw [hapart c hcell]; decide)
    rw [disturbAndCut_mem, disturb_mem_of_apart (.inl hapart), Memory.read_store_of_not_mem cells hne]
    exact (read_halfWritten p u hm a).1 ha
  · rw [disturbAndCut_mem, disturb_mem_of_apart (t := halfWritten p s.mem u) (.inr hne), halfWritten_of_ne_ok p s.mem hne]

end Sys2Proof.Machine
end
